-- ==== Sys2Proof/Config.lean ====
section
/-! DEFINITION. What an implementation of the codec fixes: the parameters of spec/00_scope.md rule R6 that are not already
widths of the types of Word.lean, and the NaN that the spec leaves open. -/

namespace Sys2Proof.Config

/-- INF_POLICY (R6, spec/93_implementation_defined.md U1): what FROMFLOAT gives for an infinity. -/
inductive InfPolicy where
  /-- both infinities give NaR `0x80` -/
  | nar
  /-- the alternative the spec did not take: `0x7F` for +∞ and `0x81` for −∞ -/
  | saturate
  deriving DecidableEq, Repr

/-- DIV (R6, U3): the divisor of the fraction in TOFLOAT. -/
inductive Divisor where
  /-- 2^FW = 64, the spec's value (R89) -/
  | div64
  /-- the literal of the source, the variant L-B of spec/92_eei_decisions.md D1 -/
  | div128
  deriving DecidableEq, Repr

/-- INF_POLICY as the spec decides it (R72, decision D2). -/
def infPolicy : InfPolicy := .nar

/-- DIV as the spec decides it (R89, decision D1). -/
def divisor : Divisor := .div64

/-- NAN_OUT (R87, decision D3, U2): the sign bit of the NaN that TOFLOAT returns. A free value, fixed per implementation:
nothing constrains it (assumption 1). -/
opaque nanSign : Bool

/-- NAN_OUT (R87, decision D3, U2): the trailing significand of the NaN that TOFLOAT returns. A free value, fixed per
implementation: nothing constrains it (assumption 1). `Machine/Operands.lean` makes a NaN of it whatever it is. -/
opaque nanPayload : BitVec 23

end Sys2Proof.Config
end

