-- ==== Sys2Proof/Word.lean ====
section
/-! DEFINITION. The value types that travel on the codec's wires (spec/10_state.md rules R16 to R19), and the two ways the
host can give a unit its inputs: by driving a word onto the unit's ports, or by wiring another unit's outputs to them. -/

namespace Sys2Proof

/-- PositByte: the 8-bit posit8 word `p[7:0]` (R16, R30). -/
abbrev PositByte := BitVec 8

/-- Float32: a 32-bit IEEE-754 binary32 value carried as one 32-bit vector `x[31:0]`, bit 31 the sign (R18, R22, R40). -/
abbrev Binary32 := BitVec 32

/-- DecodedFields as UNPACK produces it (R17, R46): `k` is 4-bit two's complement, `fraction` is left-aligned in units
of 1/64. -/
structure DecodedFields where
  sign     : Bool
  k        : BitVec 4
  exponent : BitVec 1
  fraction : BitVec 6
  deriving DecidableEq, Repr

/-- DecodedFields as PACK consumes it (R17, R50): the same bundle with a 9-bit two's complement `k`. -/
structure PackInputs where
  sign     : Bool
  k        : BitVec 9
  exponent : BitVec 1
  fraction : BitVec 6
  deriving DecidableEq, Repr

/-- What the host presents in one evaluation: which inputs its wires go to, and the value on them. An operation is selected
by wiring and not by bits (spec/30_encoding.md section 6), so the first four carry a unit's ports as R19 lists them. The
last three carry a bare pattern of the table of spec/opcode_table.json. -/
inductive PortWord where
  /-- the four inputs of the PACK unit -/
  | pack (inputs : PackInputs)
  /-- the input `byte` of the UNPACK unit -/
  | unpack (b : PositByte)
  /-- the input `f_in` of posit8_encoder -/
  | fromFloat (x : Binary32)
  /-- the input `p_in` of posit8_decoder -/
  | toFloat (b : PositByte)
  /-- a raw byte shown to both units that read a PositByte (rows POSIT8_RAW, then POSIT8_MAG of its magnitude byte) -/
  | posit (b : PositByte)
  /-- bits 6 to 0 of a magnitude byte, read by the POSIT8_MAG rows alone (R32: bit 7 of a magnitude byte is always 0) -/
  | magnitude (m : BitVec 7)
  /-- a binary32 pattern shown to posit8_encoder (rows BINARY32) -/
  | binary32 (x : Binary32)
  deriving DecidableEq, Repr

/-- The wirings between units that the spec names: R17 and program P2 (UNPACK to PACK), R111 (PACK to UNPACK), program P1
(posit8_encoder to posit8_decoder), program P2 (posit8_decoder to posit8_encoder). -/
inductive Link where
  | unpackToPack
  | packToUnpack
  | encoderToDecoder
  | decoderToEncoder
  deriving DecidableEq, Repr

/-- One evaluation the host asks for: a word driven onto the ports, or another unit's outputs wired to them. -/
inductive Stimulus where
  | drive (w : PortWord)
  | wired (l : Link)
  deriving DecidableEq, Repr

end Sys2Proof
end

