-- ==== Sys2Proof/Syntax.lean ====
section
/-! DEFINITION. The rows of spec/opcode_table.json, one constructor each. A row of format BLOCK is one of the four
operations with the values on its input ports; a row of another format is a data pattern presented to the units that read
it (spec/30_encoding.md section 6, decision D10). `sign` is the sign bit of the raw byte or of the float; `f` is the
fraction field, `e` and `m` the exponent and significand fields of the row. -/

namespace Sys2Proof

inductive Instr where
  /-- PACK (R50 to R59) -/
  | pack (sign : Bool) (k : BitVec 9) (exponent : BitVec 1) (fraction : BitVec 6)
  /-- UNPACK (R60 to R69) -/
  | unpack (b : PositByte)
  /-- FROMFLOAT, posit8_encoder (R70 to R84) -/
  | fromFloat (x : Binary32)
  /-- TOFLOAT, posit8_decoder (R85 to R94) -/
  | toFloat (b : PositByte)
  /-- ZERO: the raw byte `0x00` (R31) -/
  | zero
  /-- NAR: the raw byte `0x80` (R31) -/
  | nar
  /-- K_P6: magnitude `01111111` -/
  | kP6 (sign : Bool)
  /-- K_P5: magnitude `01111110` -/
  | kP5 (sign : Bool)
  /-- K_P4: magnitude `0111110f` -/
  | kP4 (sign : Bool) (f : BitVec 1)
  /-- K_P3: magnitude `011110ff` -/
  | kP3 (sign : Bool) (f : BitVec 2)
  /-- K_P2: magnitude `01110fff` -/
  | kP2 (sign : Bool) (f : BitVec 3)
  /-- K_P1: magnitude `0110ffff` -/
  | kP1 (sign : Bool) (f : BitVec 4)
  /-- K_P0: magnitude `010fffff` -/
  | kP0 (sign : Bool) (f : BitVec 5)
  /-- K_M1: magnitude `001fffff` -/
  | kM1 (sign : Bool) (f : BitVec 5)
  /-- K_M2: magnitude `0001ffff` -/
  | kM2 (sign : Bool) (f : BitVec 4)
  /-- K_M3: magnitude `00001fff` -/
  | kM3 (sign : Bool) (f : BitVec 3)
  /-- K_M4: magnitude `000001ff` -/
  | kM4 (sign : Bool) (f : BitVec 2)
  /-- K_M5: magnitude `0000001f` -/
  | kM5 (sign : Bool) (f : BitVec 1)
  /-- K_M6: magnitude `00000001` -/
  | kM6 (sign : Bool)
  /-- K_M7: magnitude `00000000`, read by UNPACK alone (R36, R68); it has no sign, since `neg8(0x00) = 0x00` -/
  | kM7
  /-- F32_INF: `s 11111111 0…0` -/
  | f32Inf (sign : Bool)
  /-- F32_NAN: `s 11111111 m…m`, m not 0 -/
  | f32Nan (sign : Bool) (m : BitVec 23)
  /-- F32_ZERO: `s 00000000 0…0` -/
  | f32Zero (sign : Bool)
  /-- F32_SUBNORMAL: `s 00000000 m…m`, m not 0 -/
  | f32Subnormal (sign : Bool) (m : BitVec 23)
  /-- F32_NORMAL: `s e…e m…m`, e from 1 to 254 -/
  | f32Normal (sign : Bool) (e : BitVec 8) (m : BitVec 23)
  deriving DecidableEq, Repr

end Sys2Proof
end

