-- ==== Sys2Proof/WellFormed.lean ====
section
/-! DEFINITION. Which instructions an encoding exists for. The only checks are those that the priority order of the BINARY32
rows stands for (spec/30_encoding.md rule R41): a NaN and a subnormal have `M ≠ 0`, a normal has `1 ≤ E ≤ 254`. Every
operand of every other row is admitted (R44: all inputs are legal). -/

namespace Sys2Proof

/-- The check, row by row. -/
def Instr.wellFormed : Instr → Bool
  | .pack _ _ _ _ => true
  | .unpack _ => true
  | .fromFloat _ => true
  | .toFloat _ => true
  | .zero => true
  | .nar => true
  | .kP6 _ => true
  | .kP5 _ => true
  | .kP4 _ _ => true
  | .kP3 _ _ => true
  | .kP2 _ _ => true
  | .kP1 _ _ => true
  | .kP0 _ _ => true
  | .kM1 _ _ => true
  | .kM2 _ _ => true
  | .kM3 _ _ => true
  | .kM4 _ _ => true
  | .kM5 _ _ => true
  | .kM6 _ => true
  | .kM7 => true
  | .f32Inf _ => true
  | .f32Nan _ m => m != 0#23
  | .f32Zero _ => true
  | .f32Subnormal _ m => m != 0#23
  | .f32Normal _ e _ => e != 0x00#8 && e != 0xFF#8

/-- An instruction of the table. -/
abbrev WellFormed (i : Instr) : Prop := i.wellFormed = true

end Sys2Proof
end

