-- ==== Sys2Proof/Decode.lean ====
section
/-! DEFINITION. The bit fields of a PositByte and of a binary32 word, the rows of spec/opcode_table.json, the decoder and
the encoder. The decoder is total and refuses no word: "all 256 values are valid inputs; none is rejected" (R44). What has
no pattern in the table is a word of another width than 8 or 32 bits; it is refused by name (`DecodeError`). -/

namespace Sys2Proof

/-! ### Bytes -/

/-- Two's complement negation of a byte, the only arithmetic on bytes (R7). -/
def neg8 (b : BitVec 8) : BitVec 8 := BitVec.ofNat 8 ((256 - b.toNat) % 256)

/-- The sign bit `b[7]` (R32). -/
def byteSign (b : PositByte) : Bool := b.getLsbD 7

/-- The magnitude byte (R32). -/
def magnitudeOf (b : PositByte) : BitVec 8 := if byteSign b then neg8 b else b

/-- The byte with magnitude byte `m` and the given sign (R54; the inverse of R32). -/
def rawByte (sign : Bool) (m : BitVec 8) : PositByte := if sign then neg8 m else m

/-! ### binary32 fields (R40) -/

/-- `S = x[31]`. -/
def floatSign (x : Binary32) : Bool := x.getLsbD 31

/-- `E = x[30:23]`. -/
def floatExponent (x : Binary32) : BitVec 8 := x.extractLsb' 23 8

/-- `M = x[22:0]`. -/
def floatSignificand (x : Binary32) : BitVec 23 := x.extractLsb' 0 23

/-- The word with the given fields: `{S, E, M}`. -/
def floatWord (sign : Bool) (e : BitVec 8) (m : BitVec 23) : Binary32 := BitVec.ofBool sign ++ e ++ m

/-! ### The POSIT8_MAG rows (R36) -/

/-- One row of the table of R36 as spec/opcode_table.json writes it: a magnitude byte `m` is of the row when
`m AND mask = pattern`; `k` is its regime value and `rem` its number of fraction bits. -/
structure MagnitudeRow where
  mask    : BitVec 8
  pattern : BitVec 8
  k       : Int
  rem     : Nat
  deriving DecidableEq, Repr

def rowP6 : MagnitudeRow := { mask := 0xFF#8, pattern := 0x7F#8, k := 6, rem := 0 }
def rowP5 : MagnitudeRow := { mask := 0xFF#8, pattern := 0x7E#8, k := 5, rem := 0 }
def rowP4 : MagnitudeRow := { mask := 0xFE#8, pattern := 0x7C#8, k := 4, rem := 1 }
def rowP3 : MagnitudeRow := { mask := 0xFC#8, pattern := 0x78#8, k := 3, rem := 2 }
def rowP2 : MagnitudeRow := { mask := 0xF8#8, pattern := 0x70#8, k := 2, rem := 3 }
def rowP1 : MagnitudeRow := { mask := 0xF0#8, pattern := 0x60#8, k := 1, rem := 4 }
def rowP0 : MagnitudeRow := { mask := 0xE0#8, pattern := 0x40#8, k := 0, rem := 5 }
def rowM1 : MagnitudeRow := { mask := 0xE0#8, pattern := 0x20#8, k := -1, rem := 5 }
def rowM2 : MagnitudeRow := { mask := 0xF0#8, pattern := 0x10#8, k := -2, rem := 4 }
def rowM3 : MagnitudeRow := { mask := 0xF8#8, pattern := 0x08#8, k := -3, rem := 3 }
def rowM4 : MagnitudeRow := { mask := 0xFC#8, pattern := 0x04#8, k := -4, rem := 2 }
def rowM5 : MagnitudeRow := { mask := 0xFE#8, pattern := 0x02#8, k := -5, rem := 1 }
def rowM6 : MagnitudeRow := { mask := 0xFF#8, pattern := 0x01#8, k := -6, rem := 0 }
def rowM7 : MagnitudeRow := { mask := 0xFF#8, pattern := 0x00#8, k := -7, rem := 0 }

/-- The 14 rows of R36, in the table's order. -/
def magnitudeRows : List MagnitudeRow :=
  [rowP6, rowP5, rowP4, rowP3, rowP2, rowP1, rowP0, rowM1, rowM2, rowM3, rowM4, rowM5, rowM6, rowM7]

/-- Whether a magnitude byte is of the row. -/
def MagnitudeRow.hits (row : MagnitudeRow) (m : BitVec 8) : Bool := m &&& row.mask == row.pattern

/-- The magnitude byte of the row with the given fraction field (R37). -/
def MagnitudeRow.magnitude (row : MagnitudeRow) (field : BitVec 8) : BitVec 8 := row.pattern ||| field

/-! ### The decoder -/

/-- The instruction of a magnitude byte `m` (bits 6 to 0) under a raw sign: the first row of R36 that it is of. The 14 rows
partition the magnitude bytes, and K_M7, the last of them, has the one pattern the 13 before it leave. -/
def decodeMagnitude (sign : Bool) (m7 : BitVec 7) : Instr :=
  let m : BitVec 8 := m7.setWidth 8
  if rowP6.hits m then .kP6 sign
  else if rowP5.hits m then .kP5 sign
  else if rowP4.hits m then .kP4 sign (m.setWidth 1)
  else if rowP3.hits m then .kP3 sign (m.setWidth 2)
  else if rowP2.hits m then .kP2 sign (m.setWidth 3)
  else if rowP1.hits m then .kP1 sign (m.setWidth 4)
  else if rowP0.hits m then .kP0 sign (m.setWidth 5)
  else if rowM1.hits m then .kM1 sign (m.setWidth 5)
  else if rowM2.hits m then .kM2 sign (m.setWidth 4)
  else if rowM3.hits m then .kM3 sign (m.setWidth 3)
  else if rowM4.hits m then .kM4 sign (m.setWidth 2)
  else if rowM5.hits m then .kM5 sign (m.setWidth 1)
  else if rowM6.hits m then .kM6 sign
  else .kM7

/-- The instruction of a raw byte: the POSIT8_RAW rows first, then the POSIT8_MAG rows of its magnitude byte (R31, R32). -/
def decodePosit (b : PositByte) : Instr :=
  if b = 0x00#8 then .zero
  else if b = 0x80#8 then .nar
  else decodeMagnitude (byteSign b) ((magnitudeOf b).setWidth 7)

/-- The instruction of a binary32 pattern: the BINARY32 rows in priority order (R41). -/
def decodeBinary32 (x : Binary32) : Instr :=
  if x &&& 0x7FFFFFFF#32 = 0x7F800000#32 then .f32Inf (floatSign x)
  else if x &&& 0x7F800000#32 = 0x7F800000#32 then .f32Nan (floatSign x) (floatSignificand x)
  else if x &&& 0x7FFFFFFF#32 = 0x00000000#32 then .f32Zero (floatSign x)
  else if x &&& 0x7F800000#32 = 0x00000000#32 then .f32Subnormal (floatSign x) (floatSignificand x)
  else .f32Normal (floatSign x) (floatExponent x) (floatSignificand x)

/-- The instruction of what the host presents. -/
def decode : PortWord → Instr
  | .pack p => .pack p.sign p.k p.exponent p.fraction
  | .unpack b => .unpack b
  | .fromFloat x => .fromFloat x
  | .toFloat b => .toFloat b
  | .posit b => decodePosit b
  | .magnitude m => decodeMagnitude false m
  | .binary32 x => decodeBinary32 x

/-! ### The encoder -/

/-- What the host presents to have an instruction evaluated. -/
def encode : Instr → PortWord
  | .pack sign k exponent fraction => .pack { sign, k, exponent, fraction }
  | .unpack b => .unpack b
  | .fromFloat x => .fromFloat x
  | .toFloat b => .toFloat b
  | .zero => .posit 0x00#8
  | .nar => .posit 0x80#8
  | .kP6 sign => .posit (rawByte sign (rowP6.magnitude 0#8))
  | .kP5 sign => .posit (rawByte sign (rowP5.magnitude 0#8))
  | .kP4 sign f => .posit (rawByte sign (rowP4.magnitude (f.setWidth 8)))
  | .kP3 sign f => .posit (rawByte sign (rowP3.magnitude (f.setWidth 8)))
  | .kP2 sign f => .posit (rawByte sign (rowP2.magnitude (f.setWidth 8)))
  | .kP1 sign f => .posit (rawByte sign (rowP1.magnitude (f.setWidth 8)))
  | .kP0 sign f => .posit (rawByte sign (rowP0.magnitude (f.setWidth 8)))
  | .kM1 sign f => .posit (rawByte sign (rowM1.magnitude (f.setWidth 8)))
  | .kM2 sign f => .posit (rawByte sign (rowM2.magnitude (f.setWidth 8)))
  | .kM3 sign f => .posit (rawByte sign (rowM3.magnitude (f.setWidth 8)))
  | .kM4 sign f => .posit (rawByte sign (rowM4.magnitude (f.setWidth 8)))
  | .kM5 sign f => .posit (rawByte sign (rowM5.magnitude (f.setWidth 8)))
  | .kM6 sign => .posit (rawByte sign (rowM6.magnitude 0#8))
  | .kM7 => .magnitude 0#7
  | .f32Inf sign => .binary32 (floatWord sign 0xFF#8 0#23)
  | .f32Nan sign m => .binary32 (floatWord sign 0xFF#8 m)
  | .f32Zero sign => .binary32 (floatWord sign 0x00#8 0#23)
  | .f32Subnormal sign m => .binary32 (floatWord sign 0x00#8 m)
  | .f32Normal sign e m => .binary32 (floatWord sign e m)

/-! ### Words of the table -/

/-- Why a word of the opcode table is refused. -/
inductive DecodeError where
  /-- The table has bit patterns of 8 bits (POSIT8_RAW, POSIT8_MAG) and of 32 bits (BINARY32) only; the BLOCK rows have no
  bits at all. Safe: no port of the hardware carries such a word (assumption 4). -/
  | noPatternOfWidth (nbits : Nat)
  deriving DecidableEq, Repr

/-- What the host presents for a bit pattern of the table: a raw byte or a binary32 word. -/
def tableWord (nbits w : Nat) : Except DecodeError PortWord :=
  if nbits = 8 then .ok (.posit (BitVec.ofNat 8 w))
  else if nbits = 32 then .ok (.binary32 (BitVec.ofNat 32 w))
  else .error (.noPatternOfWidth nbits)

/-- The instruction the decoder reads from a bit pattern of the table. -/
def decodeTableWord (nbits w : Nat) : Option Instr :=
  match tableWord nbits w with
  | .ok word => some (decode word)
  | .error _ => none

end Sys2Proof
end

