-- ==== Sys2Proof/Machine/Operands.lean ====
section
/-! DEFINITION. How the fields of one unit's word become those of another: the sign extension of `k` (R17), the alignment
of the fraction (R39), the fields of a normal binary32 input (R42), the output word of TOFLOAT (R43, R90) and the two
outputs that R6 makes a parameter (NAN_OUT, INF_POLICY). -/

namespace Sys2Proof.Machine

open Sys2Proof

/-- UNPACK's outputs fed to PACK's inputs: `k` is sign-extended from 4 to 9 bits, `sext_9(k)` (R17, R47). -/
def packInputsOf (d : DecodedFields) : PackInputs :=
  { sign := d.sign, k := d.k.signExtend 9, exponent := d.exponent, fraction := d.fraction }

/-- `rem` fraction bits of a byte to the 6-bit, left-aligned fraction: `F = field << (6 − rem)` (R39). The 6-bit shift drops
the bits of the byte above its fraction field. With `rem = 0` everything is shifted out and `F = 0`. -/
def fractionFromField (field : BitVec 8) (rem : Nat) : BitVec 6 := (field.setWidth 6) <<< (6 - rem)

/-- The 6-bit fraction to the `rem` bits that fit in the byte: `field = F >> (6 − rem)` (R39). With `rem = 0` it is 0. -/
def fieldFromFraction (fraction : BitVec 6) (rem : Nat) : BitVec 8 := (fraction >>> (6 - rem)).setWidth 8

/-- `k = E − 127` of a normal input, `sext_9(zext_9(E) − 127)` (R42, R80). -/
def regimeOfExponent (e : BitVec 8) : BitVec 9 := e.setWidth 9 - 127#9

/-- `F = M[22:17]` of a normal input (R42). -/
def fractionOfSignificand (m : BitVec 23) : BitVec 6 := m.extractLsb' 17 6

/-- The fields that FROMFLOAT passes to PACK for a normal input; `exponent` is tied to 0 (R42, R56, R80). -/
def packInputsOfFloat (sign : Bool) (e : BitVec 8) (m : BitVec 23) : PackInputs :=
  { sign, k := regimeOfExponent e, exponent := 0#1, fraction := fractionOfSignificand m }

/-- The biased exponent of TOFLOAT's output: `zext_8(sext_9(k) + 127)` (R92). -/
def exponentOfRegime (k : BitVec 4) : BitVec 8 := (k.signExtend 9 + 127#9).setWidth 8

/-- The trailing significand of TOFLOAT's output: `f_out[22:17] = F` and 17 zeros for the divisor 64 (R90); one place lower
for the divisor 128 (spec/92_eei_decisions.md D1, reading L-B). -/
def significandOfFraction (div : Config.Divisor) (fraction : BitVec 6) : BitVec 23 :=
  match div with
  | .div64 => fraction ++ 0#17
  | .div128 => 0#1 ++ fraction ++ 0#16

/-- TOFLOAT's output word for the fields of an ordinary byte (R43, R90). -/
def floatOfFields (div : Config.Divisor) (d : DecodedFields) : Binary32 :=
  floatWord d.sign (exponentOfRegime d.k) (significandOfFraction div d.fraction)

/-- NAN_OUT (R87, D3): the NaN of an implementation, with the free sign and payload of Config. A payload of 0 would make an
infinity, so `0x400000`, the payload of the spec's default `0x7FC00000`, stands for it: the value is a NaN whatever the two
free values are, and every binary32 NaN is one of its values. -/
def nanOut : Binary32 :=
  floatWord Config.nanSign 0xFF#8 (if Config.nanPayload = 0#23 then 0x400000#23 else Config.nanPayload)

/-- FROMFLOAT of an infinity (R72; U1 for the policy the spec did not take). -/
def infinityByte (policy : Config.InfPolicy) (sign : Bool) : PositByte :=
  match policy with
  | .nar => 0x80#8
  | .saturate => rawByte sign 0x7F#8

end Sys2Proof.Machine
end

