-- ==== Sys2Proof/Machine/State.lean ====
section
/-! DEFINITION. The state of the machine. The codec itself stores nothing: "State machine: none" (spec/10_state.md rules R10
to R15). What State holds is what is on the wires: for each of the four units of rule R19, the values on its input and
output ports at its last evaluation; and the host's evaluations still to come (assumptions 2 and 3). -/

namespace Sys2Proof.Machine

/-- The ports of the PACK unit (R19). -/
structure PackPorts where
  inputs : PackInputs
  byte   : PositByte
  deriving DecidableEq, Repr

/-- The ports of the UNPACK unit (R19). -/
structure UnpackPorts where
  byte   : PositByte
  fields : DecodedFields
  deriving DecidableEq, Repr

/-- The ports of posit8_encoder (R19). -/
structure EncoderPorts where
  fIn  : Binary32
  pOut : PositByte
  deriving DecidableEq, Repr

/-- The ports of posit8_decoder (R19). -/
structure DecoderPorts where
  pIn  : PositByte
  fOut : Binary32
  deriving DecidableEq, Repr

/-- Why the machine faults. It never does: "No operation raises a synchronous exception" (R120), and no input is illegal
(R44), so there is no constructor. -/
inductive Fault where
  deriving DecidableEq, Repr

/-- Why the machine refuses an instruction. -/
inductive Refusal where
  /-- An arm of `exec` whose instruction has no meaning yet. No arm raises it: every row has its meaning. Safe. -/
  | notModelled (mnemonic : String)
  deriving DecidableEq, Repr

/-- The wires of the four units, and the host's evaluations still to come, the next one first. -/
structure State where
  pack    : PackPorts
  unpack  : UnpackPorts
  encoder : EncoderPorts
  decoder : DecoderPorts
  pending : List Stimulus
  deriving DecidableEq, Repr

/-- There is no reset and no reset value (R135); "the outputs are defined by the inputs from the instant the inputs are
defined" (spec/10_state.md section 4). DESIGN CHOICE (assumption 2): every input port holds 0, and every output port the
value the rules give for that input: PACK(0, 0, 0, 0) = `0x40` (R59), UNPACK(`0x00`) = (0, −7, 0, 0) (R68),
FROMFLOAT(+0.0) = `0x00` (R73), TOFLOAT(`0x00`) = +0.0 (R86). Nothing is pending. -/
def State.reset : State where
  pack    := { inputs := { sign := false, k := 0#9, exponent := 0#1, fraction := 0#6 }, byte := 0x40#8 }
  unpack  := { byte := 0x00#8, fields := { sign := false, k := -7#4, exponent := 0#1, fraction := 0#6 } }
  encoder := { fIn := 0x00000000#32, pOut := 0x00#8 }
  decoder := { pIn := 0x00#8, fOut := 0x00000000#32 }
  pending := []

end Sys2Proof.Machine
end

