-- ==== Sys2Proof/Machine/Ops.lean ====
section
/-! DEFINITION. The shared operations on the state: an evaluation sets all the ports of a unit at once ("an operation reads
all its input bits together and produces all its output bits together", R24), and a stimulus becomes the word it carries.
There is no memory (R20, R21), no register (R11), no exception to take and none to return from (R120, R126). -/

namespace Sys2Proof.Machine

open Sys2Proof

/-- The PACK unit shows an evaluation. -/
def State.showPack (s : State) (p : PackPorts) : State := { s with pack := p }

/-- The UNPACK unit shows an evaluation. -/
def State.showUnpack (s : State) (p : UnpackPorts) : State := { s with unpack := p }

/-- posit8_encoder shows an evaluation. -/
def State.showEncoder (s : State) (p : EncoderPorts) : State := { s with encoder := p }

/-- posit8_decoder shows an evaluation. -/
def State.showDecoder (s : State) (p : DecoderPorts) : State := { s with decoder := p }

/-- The evaluations still to come. -/
def State.setPending (s : State) (l : List Stimulus) : State := { s with pending := l }

/-- Both units that read a PositByte show it: UNPACK with its fields and posit8_decoder with its float. -/
def State.showByte (s : State) (b : PositByte) (fields : DecodedFields) (f : Binary32) : State :=
  (s.showUnpack { byte := b, fields }).showDecoder { pIn := b, fOut := f }

/-- Both units that read a PositByte show the byte of a row of R36: UNPACK reports the row's `k` and the field left-aligned
(R64, R65, R66), posit8_decoder the float of these fields (R88, R90). -/
def State.showRow (s : State) (row : MagnitudeRow) (sign : Bool) (field : BitVec 8) : State :=
  let fields : DecodedFields :=
    { sign, k := BitVec.ofInt 4 row.k, exponent := 0#1, fraction := fractionFromField field row.rem }
  s.showByte (rawByte sign (row.magnitude field)) fields (floatOfFields Config.divisor fields)

/-- The word a stimulus carries: the one the host drives, or the outputs of the unit that a wiring takes them from. -/
def Stimulus.word (s : State) : Stimulus → PortWord
  | .drive w => w
  | .wired .unpackToPack => .pack (packInputsOf s.unpack.fields)
  | .wired .packToUnpack => .unpack s.pack.byte
  | .wired .encoderToDecoder => .toFloat s.encoder.pOut
  | .wired .decoderToEncoder => .fromFloat s.decoder.fOut

end Sys2Proof.Machine
end

