-- ==== Sys2Proof/Machine/FieldCodec.lean ====
section
/-! DEFINITION. The Field Codec, spec/40_field_codec.md: operations PACK and UNPACK. -/

namespace Sys2Proof.Machine

open Sys2Proof

/-! ### PACK -/

/-- Whether the regime pattern puts a 1 at bit position `6 − i` (R51, R55): for `k ≥ 0` the ones are at `i = 0 .. k`, for
`k < 0` the one is at `i = −k`. -/
def regimeBit (k : Int) (i : Nat) : Bool :=
  if 0 ≤ k then decide ((i : Int) ≤ k) else decide ((i : Int) = -k)

/-- `L`, the length of the regime pattern before it is cut to the byte (R34, R51). -/
def regimeLength (k : Int) : Nat := if 0 ≤ k then (k + 2).toNat else (-k + 1).toNat

/-- `rem = max(0, 7 − L)` (R34, R53); the subtraction of Nat stops at 0. -/
def fractionBits (k : Int) : Nat := 7 - regimeLength k

/-- Regime placement (R52): from `mag = 0x00`, the bits of the pattern that fall on positions 6 to 0. -/
def regimeMagnitude (k : Int) : BitVec 8 :=
  [0, 1, 2, 3, 4, 5, 6].foldl (fun mag i => if regimeBit k i then mag ||| (1#8 <<< (6 - i)) else mag) 0x00#8

/-- The magnitude byte: regime, then the top `rem` bits of the fraction below it (R53). The positions are disjoint, so
the field is laid over zeros. -/
def packMagnitude (k : Int) (fraction : BitVec 6) : BitVec 8 :=
  regimeMagnitude k ||| fieldFromFraction fraction (fractionBits k)

/-- PACK (R55): the sign is applied last (R54), the exponent is not read (R56). -/
def packByte (p : PackInputs) : PositByte := rawByte p.sign (packMagnitude p.k.toInt p.fraction)

/-- PACK evaluates what is on its ports (R50 to R59). -/
def execPack (sign : Bool) (k : BitVec 9) (exponent : BitVec 1) (fraction : BitVec 6) (s : State) :
    Host.Outcome State Fault Refusal :=
  let inputs : PackInputs := { sign, k, exponent, fraction }
  .next (s.showPack { inputs, byte := packByte inputs })

/-! ### UNPACK -/

/-- `r`, the length of the run of bits equal to bit 6, scanned over positions 5 to 0 and no further (R63, R67, R139). -/
def regimeRun (m : BitVec 8) : Nat :=
  [5, 4, 3, 2, 1, 0].foldl (fun r pos => if r = 6 - pos ∧ m.getLsbD pos = m.getLsbD 6 then r + 1 else r) 1

/-- `k = r − 1` for a run of ones, `k = −r` for a run of zeros (R64). -/
def regimeValue (m : BitVec 8) : Int := if m.getLsbD 6 then (regimeRun m : Int) - 1 else -(regimeRun m : Int)

/-- The number of bits below the terminator (R65). -/
def fractionBitsOfRun (r : Nat) : Nat := if r ≤ 6 then 6 - r else 0

/-- UNPACK (R67): `0x80` first (R61), then sign and magnitude (R62), regime (R63, R64), fraction (R65), exponent 0 (R66). -/
def unpackByte (b : PositByte) : DecodedFields :=
  if b = 0x80#8 then { sign := false, k := 0#4, exponent := 0#1, fraction := 0#6 }
  else
    let m := magnitudeOf b
    { sign := byteSign b
      k := BitVec.ofInt 4 (regimeValue m)
      exponent := 0#1
      fraction := fractionFromField m (fractionBitsOfRun (regimeRun m)) }

/-- UNPACK evaluates what is on its port (R60 to R69). -/
def execUnpack (b : PositByte) (s : State) : Host.Outcome State Fault Refusal :=
  .next (s.showUnpack { byte := b, fields := unpackByte b })

end Sys2Proof.Machine
end

