-- ==== Sys2Proof/Machine/Decoder.lean ====
section
/-! DEFINITION. posit8_decoder, spec/42_decoder_tofloat.md: operation TOFLOAT, and the POSIT8 rows of the table, each of
which is a class of the bytes that UNPACK and TOFLOAT read. A POSIT8 row presents its byte to both (assumption 5). -/

namespace Sys2Proof.Machine

open Sys2Proof

/-- TOFLOAT (R92): the two tests of the raw byte (R86, R87) come before UNPACK's outputs are used (R88, R90). -/
def decodeByte (div : Config.Divisor) (b : PositByte) : Binary32 :=
  if b = 0x00#8 then 0x00000000#32
  else if b = 0x80#8 then nanOut
  else floatOfFields div (unpackByte b)

/-- TOFLOAT evaluates what is on `p_in` (R85 to R94). -/
def execToFloat (b : PositByte) (s : State) : Host.Outcome State Fault Refusal :=
  .next (s.showDecoder { pIn := b, fOut := decodeByte Config.divisor b })

/-! ### POSIT8_RAW -/

/-- ZERO: TOFLOAT gives +0.0 (R86); UNPACK, which has no test for it, gives (0, −7, 0, 0) (R68). -/
def execZero (s : State) : Host.Outcome State Fault Refusal :=
  .next (s.showByte 0x00#8 { sign := false, k := -7#4, exponent := 0#1, fraction := 0#6 } 0x00000000#32)

/-- NAR: TOFLOAT gives a NaN (R87); UNPACK gives (0, 0, 0, 0) (R61). -/
def execNar (s : State) : Host.Outcome State Fault Refusal :=
  .next (s.showByte 0x80#8 { sign := false, k := 0#4, exponent := 0#1, fraction := 0#6 } nanOut)

/-! ### POSIT8_MAG: one row of R36 each -/

/-- K_P6: `k = 6`, no terminator, maxpos. -/
def execKP6 (sign : Bool) (s : State) : Host.Outcome State Fault Refusal := .next (s.showRow rowP6 sign 0#8)

/-- K_P5: `k = 5`, no fraction bit. -/
def execKP5 (sign : Bool) (s : State) : Host.Outcome State Fault Refusal := .next (s.showRow rowP5 sign 0#8)

/-- K_P4: `k = 4`, 1 fraction bit. -/
def execKP4 (sign : Bool) (f : BitVec 1) (s : State) : Host.Outcome State Fault Refusal :=
  .next (s.showRow rowP4 sign (f.setWidth 8))

/-- K_P3: `k = 3`, 2 fraction bits. -/
def execKP3 (sign : Bool) (f : BitVec 2) (s : State) : Host.Outcome State Fault Refusal :=
  .next (s.showRow rowP3 sign (f.setWidth 8))

/-- K_P2: `k = 2`, 3 fraction bits. -/
def execKP2 (sign : Bool) (f : BitVec 3) (s : State) : Host.Outcome State Fault Refusal :=
  .next (s.showRow rowP2 sign (f.setWidth 8))

/-- K_P1: `k = 1`, 4 fraction bits. -/
def execKP1 (sign : Bool) (f : BitVec 4) (s : State) : Host.Outcome State Fault Refusal :=
  .next (s.showRow rowP1 sign (f.setWidth 8))

/-- K_P0: `k = 0`, 5 fraction bits. -/
def execKP0 (sign : Bool) (f : BitVec 5) (s : State) : Host.Outcome State Fault Refusal :=
  .next (s.showRow rowP0 sign (f.setWidth 8))

/-- K_M1: `k = −1`, 5 fraction bits. -/
def execKM1 (sign : Bool) (f : BitVec 5) (s : State) : Host.Outcome State Fault Refusal :=
  .next (s.showRow rowM1 sign (f.setWidth 8))

/-- K_M2: `k = −2`, 4 fraction bits. -/
def execKM2 (sign : Bool) (f : BitVec 4) (s : State) : Host.Outcome State Fault Refusal :=
  .next (s.showRow rowM2 sign (f.setWidth 8))

/-- K_M3: `k = −3`, 3 fraction bits. -/
def execKM3 (sign : Bool) (f : BitVec 3) (s : State) : Host.Outcome State Fault Refusal :=
  .next (s.showRow rowM3 sign (f.setWidth 8))

/-- K_M4: `k = −4`, 2 fraction bits. -/
def execKM4 (sign : Bool) (f : BitVec 2) (s : State) : Host.Outcome State Fault Refusal :=
  .next (s.showRow rowM4 sign (f.setWidth 8))

/-- K_M5: `k = −5`, 1 fraction bit. -/
def execKM5 (sign : Bool) (f : BitVec 1) (s : State) : Host.Outcome State Fault Refusal :=
  .next (s.showRow rowM5 sign (f.setWidth 8))

/-- K_M6: `k = −6`, no fraction bit, minpos. -/
def execKM6 (sign : Bool) (s : State) : Host.Outcome State Fault Refusal := .next (s.showRow rowM6 sign 0#8)

/-- K_M7: the magnitude byte `0x00`, "reached by UNPACK only when UNPACK is applied to `0x00` directly" (R36): UNPACK reports
`k = −7` (R68), and posit8_decoder, for which the raw byte `0x00` is the row ZERO, is shown nothing. -/
def execKM7 (s : State) : Host.Outcome State Fault Refusal :=
  .next (s.showUnpack { byte := 0x00#8, fields := { sign := false, k := -7#4, exponent := 0#1, fraction := 0#6 } })

end Sys2Proof.Machine
end

