-- ==== Sys2Proof/Machine/Encoder.lean ====
section
/-! DEFINITION. posit8_encoder, spec/41_encoder_fromfloat.md: operation FROMFLOAT, and the BINARY32 rows of the table, each
of which is a class of its inputs. -/

namespace Sys2Proof.Machine

open Sys2Proof

/-- FROMFLOAT in its bit-exact form (R80): NaN (R71), infinity (R72), zero and subnormal (R73, R83), then PACK of the
exponent and the top of the significand (R74 to R78). -/
def encodeFloat (policy : Config.InfPolicy) (x : Binary32) : PositByte :=
  if floatExponent x = 0xFF#8 then
    if floatSignificand x = 0#23 then infinityByte policy (floatSign x) else 0x80#8
  else if floatExponent x = 0x00#8 then 0x00#8
  else packByte (packInputsOfFloat (floatSign x) (floatExponent x) (floatSignificand x))

/-- FROMFLOAT evaluates what is on `f_in` (R70 to R84). -/
def execFromFloat (x : Binary32) (s : State) : Host.Outcome State Fault Refusal :=
  .next (s.showEncoder { fIn := x, pOut := encodeFloat Config.infPolicy x })

/-- F32_INF: ±∞ gives NaR under the spec's policy (R72). -/
def execF32Inf (sign : Bool) (s : State) : Host.Outcome State Fault Refusal :=
  .next (s.showEncoder { fIn := floatWord sign 0xFF#8 0#23, pOut := infinityByte Config.infPolicy sign })

/-- F32_NAN: any NaN gives NaR; its sign and payload are not looked at (R71). -/
def execF32Nan (sign : Bool) (m : BitVec 23) (s : State) : Host.Outcome State Fault Refusal :=
  .next (s.showEncoder { fIn := floatWord sign 0xFF#8 m, pOut := 0x80#8 })

/-- F32_ZERO: both zeros give `0x00` (R73). -/
def execF32Zero (sign : Bool) (s : State) : Host.Outcome State Fault Refusal :=
  .next (s.showEncoder { fIn := floatWord sign 0x00#8 0#23, pOut := 0x00#8 })

/-- F32_SUBNORMAL: every subnormal gives `0x00` (R83). -/
def execF32Subnormal (sign : Bool) (m : BitVec 23) (s : State) : Host.Outcome State Fault Refusal :=
  .next (s.showEncoder { fIn := floatWord sign 0x00#8 m, pOut := 0x00#8 })

/-- F32_NORMAL: `PACK(s, E − 127, 0, M[22:17])` (R78, R80). -/
def execF32Normal (sign : Bool) (e : BitVec 8) (m : BitVec 23) (s : State) : Host.Outcome State Fault Refusal :=
  .next (s.showEncoder { fIn := floatWord sign e m, pOut := packByte (packInputsOfFloat sign e m) })

end Sys2Proof.Machine
end

