-- ==== Sys2Proof/Machine/Dispatch.lean ====
section
/-! DEFINITION. One arm per row of spec/opcode_table.json. -/

namespace Sys2Proof.Machine

open Sys2Proof

def exec (i : Instr) (s : State) : Host.Outcome State Fault Refusal :=
  match i with
  -- BLOCK
  | .pack sign k exponent fraction => Sys2Proof.Machine.execPack sign k exponent fraction s
  | .unpack b => Sys2Proof.Machine.execUnpack b s
  | .fromFloat x => Sys2Proof.Machine.execFromFloat x s
  | .toFloat b => Sys2Proof.Machine.execToFloat b s
  -- POSIT8_RAW
  | .zero => Sys2Proof.Machine.execZero s
  | .nar => Sys2Proof.Machine.execNar s
  -- POSIT8_MAG
  | .kP6 sign => Sys2Proof.Machine.execKP6 sign s
  | .kP5 sign => Sys2Proof.Machine.execKP5 sign s
  | .kP4 sign f => Sys2Proof.Machine.execKP4 sign f s
  | .kP3 sign f => Sys2Proof.Machine.execKP3 sign f s
  | .kP2 sign f => Sys2Proof.Machine.execKP2 sign f s
  | .kP1 sign f => Sys2Proof.Machine.execKP1 sign f s
  | .kP0 sign f => Sys2Proof.Machine.execKP0 sign f s
  | .kM1 sign f => Sys2Proof.Machine.execKM1 sign f s
  | .kM2 sign f => Sys2Proof.Machine.execKM2 sign f s
  | .kM3 sign f => Sys2Proof.Machine.execKM3 sign f s
  | .kM4 sign f => Sys2Proof.Machine.execKM4 sign f s
  | .kM5 sign f => Sys2Proof.Machine.execKM5 sign f s
  | .kM6 sign => Sys2Proof.Machine.execKM6 sign s
  | .kM7 => Sys2Proof.Machine.execKM7 s
  -- BINARY32
  | .f32Inf sign => Sys2Proof.Machine.execF32Inf sign s
  | .f32Nan sign m => Sys2Proof.Machine.execF32Nan sign m s
  | .f32Zero sign => Sys2Proof.Machine.execF32Zero sign s
  | .f32Subnormal sign m => Sys2Proof.Machine.execF32Subnormal sign m s
  | .f32Normal sign e m => Sys2Proof.Machine.execF32Normal sign e m s

end Sys2Proof.Machine
end

