-- ==== Sys2Proof/Machine/Step.lean ====
section
/-! DEFINITION. One step of the machine is one evaluation (R10): the host's next stimulus is presented and the units it is
wired to show their results. -/

namespace Sys2Proof.Machine

open Sys2Proof

/-- Present the next pending stimulus. With none pending the inputs are held, and so are the outputs (R10, R145). -/
def step (s : State) : Host.Outcome State Fault Refusal :=
  match s.pending with
  | [] => .next s
  | st :: rest => exec (decode (Stimulus.word s st)) (s.setPending rest)

/-- `s` with a bit pattern of the opcode table as its next evaluation (assumption 3). A word of a width the table has no
pattern of cannot be presented, and leaves `s` as it is (assumption 4). -/
def State.withFetchWord (s : State) (nbits w : Nat) : State :=
  match tableWord nbits w with
  | .ok word => s.setPending (.drive word :: s.pending)
  | .error _ => s

end Sys2Proof.Machine
end

