-- ==== Sys2Proof/Machine/Flags.lean ====
section
/-! DEFINITION. The hardware has no flag, no condition code and no status output (R13, R121): nothing here is state, and no
instruction writes any of it. These are the comparisons with which a user learns from a byte or a float what a flag would
have said. -/

namespace Sys2Proof.Machine

open Sys2Proof

/-- "A user who wants to know that a result is NaR … compares the byte with `0x80`" (R13). -/
def isNaR (b : PositByte) : Bool := b == 0x80#8

/-- "… or zero compares the byte with … `0x00`" (R13). -/
def isZeroByte (b : PositByte) : Bool := b == 0x00#8

/-- A byte whose meaning the sign, regime and fraction decomposition gives: any but the two reserved ones (R31). -/
def isOrdinary (b : PositByte) : Bool := !isNaR b && !isZeroByte b

/-- NaN: `E = 255`, `M ≠ 0` (R41). -/
def isNaN (x : Binary32) : Bool := floatExponent x == 0xFF#8 && floatSignificand x != 0#23

/-- Infinity: `E = 255`, `M = 0` (R41). -/
def isInfinite (x : Binary32) : Bool := floatExponent x == 0xFF#8 && floatSignificand x == 0#23

/-- Zero: `E = 0`, `M = 0`, either sign (R41). -/
def isZeroFloat (x : Binary32) : Bool := floatExponent x == 0x00#8 && floatSignificand x == 0#23

/-- Subnormal: `E = 0`, `M ≠ 0` (R41). -/
def isSubnormal (x : Binary32) : Bool := floatExponent x == 0x00#8 && floatSignificand x != 0#23

/-- Normal: `1 ≤ E ≤ 254` (R41). -/
def isNormal (x : Binary32) : Bool := floatExponent x != 0x00#8 && floatExponent x != 0xFF#8

/-- Finite: neither a NaN nor an infinity (R41). -/
def isFinite (x : Binary32) : Bool := floatExponent x != 0xFF#8

end Sys2Proof.Machine
end

