-- ==== Sys2Proof/Machine/Values.lean ====
section
/-! DEFINITION. The numbers that a byte and a float denote, exact (R7, R38, R41). Nothing here is used by a step; claims
about values are stated in these terms. -/

namespace Sys2Proof.Machine

open Sys2Proof

/-- `(−1)^s`. -/
def signFactor (sign : Bool) : ℚ := if sign then -1 else 1

/-- The number a binary32 pattern denotes (R41); none for a NaN and for an infinity. -/
def floatValue (x : Binary32) : Option ℚ :=
  if floatExponent x = 0xFF#8 then none
  else if floatExponent x = 0x00#8 then
    some (signFactor (floatSign x) * (floatSignificand x).toNat * (2 : ℚ) ^ (-149 : ℤ))
  else
    some (signFactor (floatSign x) * (1 + (floatSignificand x).toNat / 2 ^ 23) *
      (2 : ℚ) ^ ((floatExponent x).toNat - 127 : ℤ))

/-- The number a PositByte denotes (R38), read off the row of R36 that its magnitude byte is of; none for NaR. -/
def byteValue (b : PositByte) : Option ℚ :=
  if isZeroByte b then some 0
  else if isNaR b then none
  else
    match magnitudeRows.find? (fun row => row.hits (magnitudeOf b)) with
    | some row =>
      some (signFactor (byteSign b) * (2 : ℚ) ^ row.k *
        (1 + ((magnitudeOf b).toNat % 2 ^ row.rem : Nat) / 2 ^ row.rem))
    | none => none

end Sys2Proof.Machine
end

