-- ==== Sys2Proof/Safety.lean ====
section
/-! DEFINITION. The terms in which claims about the whole machine are stated: when the wires are settled, which units an
instruction's inputs go to, when a step completes, and what a row of the table shows. -/

namespace Sys2Proof.Machine

open Sys2Proof

/-- The wires are settled: every unit's outputs are the rules' function of what is on its own inputs, "and of nothing else"
(R10, spec/10_state.md section 4). -/
structure Settled (s : State) : Prop where
  pack    : s.pack.byte = packByte s.pack.inputs
  unpack  : s.unpack.fields = unpackByte s.unpack.byte
  encoder : s.encoder.pOut = encodeFloat Config.infPolicy s.encoder.fIn
  decoder : s.decoder.fOut = decodeByte Config.divisor s.decoder.pIn

/-- The four units of R19. -/
inductive CodecUnit where
  | pack
  | unpack
  | encoder
  | decoder
  deriving DecidableEq, Repr

/-- The ports of a unit hold the same values in both states. -/
def SamePorts (s t : State) : CodecUnit → Prop
  | .pack => s.pack = t.pack
  | .unpack => s.unpack = t.unpack
  | .encoder => s.encoder = t.encoder
  | .decoder => s.decoder = t.decoder

/-- The units that an instruction's inputs go to: its own unit for a BLOCK row, the two units that read a PositByte for a
POSIT8 row, UNPACK alone for K_M7, posit8_encoder for a BINARY32 row. DESIGN CHOICE (assumptions 5 and 6). -/
def drives : Instr → List CodecUnit
  | .pack _ _ _ _ => [.pack]
  | .unpack _ => [.unpack]
  | .fromFloat _ => [.encoder]
  | .toFloat _ => [.decoder]
  | .zero => [.unpack, .decoder]
  | .nar => [.unpack, .decoder]
  | .kP6 _ => [.unpack, .decoder]
  | .kP5 _ => [.unpack, .decoder]
  | .kP4 _ _ => [.unpack, .decoder]
  | .kP3 _ _ => [.unpack, .decoder]
  | .kP2 _ _ => [.unpack, .decoder]
  | .kP1 _ _ => [.unpack, .decoder]
  | .kP0 _ _ => [.unpack, .decoder]
  | .kM1 _ _ => [.unpack, .decoder]
  | .kM2 _ _ => [.unpack, .decoder]
  | .kM3 _ _ => [.unpack, .decoder]
  | .kM4 _ _ => [.unpack, .decoder]
  | .kM5 _ _ => [.unpack, .decoder]
  | .kM6 _ => [.unpack, .decoder]
  | .kM7 => [.unpack]
  | .f32Inf _ => [.encoder]
  | .f32Nan _ _ => [.encoder]
  | .f32Zero _ => [.encoder]
  | .f32Subnormal _ _ => [.encoder]
  | .f32Normal _ _ _ => [.encoder]

/-- A step completes: it answers a next state. "Every operation returns a value for every input" (R120). -/
def Completes (s : State) : Prop := ∃ t, step s = .next t

/-- What a POSIT8_MAG row with a value does: it completes from every state `s` by showing, at both units that read a byte, the
byte of that row; UNPACK reports `k` and the field left-aligned in 6 bits, and posit8_decoder the float whose value is
`±2^k × (1 + field / 2^rem)`, which is the value of the byte (R36, R37, R38). -/
def RowShowsItsValue (s : State) (i : Instr) (sign : Bool) (k : Int) (rem field : Nat) : Prop :=
  ∃ (b : PositByte) (f : Binary32) (v : ℚ),
    exec i s = .next { s with
      unpack := { byte := b, fields := {
        sign, k := BitVec.ofInt 4 k, exponent := 0#1, fraction := BitVec.ofNat 6 (field * 2 ^ (6 - rem)) } }
      decoder := { pIn := b, fOut := f } } ∧
    v = signFactor sign * (2 : ℚ) ^ k * (1 + (field : ℚ) / 2 ^ rem) ∧ floatValue f = some v ∧ byteValue b = some v

end Sys2Proof.Machine
end

