-- ==== Sys2Proof/Certificates/Slice0/Obligations.lean ====
section
/-! DEFINITION. The statements for the provers. Each speaks of what `exec` or `step` answers; where it names the numbers that
bytes and floats denote, these are `byteValue` (rule R38) and `floatValue` (rule R41) of Machine/Values.lean. An equation
`exec i s = .next (s with …)` states the instruction's whole frame: every port it does not name, and every evaluation still
to come, is as before. A rule that the spec marks as derived or as its own decision is an inference of the spec's; a
statement that rests on one has basis "derived" and says so. -/

open Sys2Proof Sys2Proof.Machine

/-! ### The machine -/

/-- A step presents the next pending stimulus and runs the instruction it decodes to, with the stimulus taken off the list;
with none pending it changes nothing. The list of stimuli is the model's choice (assumption 3), and that a step with none
pending changes nothing is the model's inference from R10 and R145 (assumption 7). -/
def Obligations.StepRunsTheDecodedStimulus : Prop :=
  (∀ (s : State) (st : Stimulus) (rest : List Stimulus), s.pending = st :: rest →
      step s = exec (decode (Stimulus.word s st)) { s with pending := rest }) ∧
  (∀ s : State, s.pending = [] → step s = .next s)

/-- A step on the encoding of a well-formed instruction runs exactly that instruction. The list of stimuli and the words on it
are the model's choice (assumptions 3 and 4). -/
def Obligations.StepRunsTheEncodedInstruction : Prop :=
  ∀ (s : State) (i : Instr) (rest : List Stimulus), WellFormed i → s.pending = .drive (encode i) :: rest →
    step s = exec i { s with pending := rest }

/-- What a unit evaluates when its inputs are wired to another unit's outputs: `k` goes from UNPACK to PACK sign-extended
(R17), p_out drives p_in (program P1), f_out drives f_in (program P2), PACK's byte drives UNPACK (R111). The spec names these
four wirings. That a wiring is a stimulus of its own, which takes the source unit's ports once, when the step is made, is the
model's choice (assumption 12), and so is the list of stimuli (assumption 3). -/
def Obligations.WiredUnitsTakeTheOtherUnitsOutputs : Prop :=
  ∀ (s : State) (rest : List Stimulus),
    (s.pending = .wired .unpackToPack :: rest →
      step s = exec (.pack s.unpack.fields.sign (s.unpack.fields.k.signExtend 9) s.unpack.fields.exponent
        s.unpack.fields.fraction) { s with pending := rest }) ∧
    (s.pending = .wired .packToUnpack :: rest →
      step s = exec (.unpack s.pack.byte) { s with pending := rest }) ∧
    (s.pending = .wired .encoderToDecoder :: rest →
      step s = exec (.toFloat s.encoder.pOut) { s with pending := rest }) ∧
    (s.pending = .wired .decoderToEncoder :: rest →
      step s = exec (.fromFloat s.decoder.fOut) { s with pending := rest })

/-- A bit pattern of the opcode table, placed as the next evaluation, is what the next step runs, and nothing else of the
state is touched. The list of stimuli and the widths of a table word are the model's choice (assumptions 3 and 4). -/
def Obligations.FetchWordIsTheNextEvaluation : Prop :=
  ∀ (s : State) (w : Nat),
    step (s.withFetchWord 8 w) = exec (decodePosit (BitVec.ofNat 8 w)) s ∧
    step (s.withFetchWord 32 w) = exec (decodeBinary32 (BitVec.ofNat 32 w)) s

/-- Every instruction of the table completes from every state, on every operand: PACK, UNPACK, FROMFLOAT, TOFLOAT, ZERO, NAR,
K_P6 to K_P0, K_M1 to K_M7, F32_INF, F32_NAN, F32_ZERO, F32_SUBNORMAL, F32_NORMAL. That it completes is R44 and
R120, and that the evaluation of one unit does not affect another is R26. The rest of the frame is the model's choice: the wires
of units not evaluated are held, and so are the evaluations still to come (assumption 3), a pattern row is shown to the units of
`drives` (assumption 5), a block leaves the ports of the units PACK and UNPACK alone (assumption 6), and terms that WellFormed
excludes complete too (assumption 11). -/
def Obligations.EveryInstructionCompletesAndKeepsOtherUnits : Prop :=
  ∀ (i : Instr) (s : State), ∃ t, exec i s = .next t ∧ t.pending = s.pending ∧
    ∀ u, u ∉ drives i → SamePorts t s u

/-- Every step from every state answers a next state: nothing faults, is refused or gets stuck (R120, R44). A step
with no stimulus pending is the model's (assumptions 3 and 7). -/
def Obligations.EveryStepCompletes : Prop := ∀ s : State, Completes s

/-- Equal inputs give equal outputs in any two states: not earlier inputs, not the other units, not time (R10; R115,
derived in the spec). Which units a pattern row drives is the model's choice (assumption 5), and the ill-formed terms are spoken
of too (assumption 11). -/
def Obligations.OutputsDependOnInputsOnly : Prop :=
  ∀ (i : Instr) (s s' : State), ∃ t t', exec i s = .next t ∧ exec i s' = .next t' ∧
    ∀ u, u ∈ drives i → SamePorts t t' u

/-- Two evaluations on different units, in either order, do not affect each other (R26). Which units a pattern row drives, that
the blocks' inner PACK and UNPACK are not the units of State, and the answers for ill-formed terms are the model's choice
(assumptions 5, 6 and 11). -/
def Obligations.EvaluationsOnDifferentUnitsCommute : Prop :=
  ∀ (i j : Instr) (s : State), (∀ u, u ∈ drives i → u ∉ drives j) →
    ∃ t t' v, exec i s = .next t ∧ exec j t = .next v ∧ exec j s = .next t' ∧ exec i t' = .next v

/-- Evaluating twice on the same input gives the same output and changes nothing (R24). The ill-formed terms are spoken of too
(assumption 11). -/
def Obligations.RepeatingAnEvaluationChangesNothing : Prop :=
  ∀ (i : Instr) (s : State), ∃ t, exec i s = .next t ∧ exec i t = .next t

/-- The wires are settled after every step from a state in which they are: each unit's outputs are the operation's function
of its own inputs (R10). That the wires of units not evaluated are held, which units a pattern row is shown to, and a step with
nothing pending are the model's (assumptions 3, 5 and 7). -/
def Obligations.StepKeepsTheWiresSettled : Prop :=
  ∀ s t : State, Settled s → step s = .next t → Settled t

/-- The wires are settled at reset. The inputs there are the model's choice (assumption 2), the outputs then the rules'. -/
def Obligations.ResetHasSettledWires : Prop := Settled State.reset

/-! ### Encoding -/

/-- Decoding the encoding of any well-formed instruction, at every value of every operand, gives it back. The
words that carry the BLOCK rows and K_M7 are the model's choice (assumption 4). -/
def Obligations.DecodeInvertsEncode : Prop := ∀ i : Instr, WellFormed i → decode (encode i) = i

/-- Every word decodes to a well-formed instruction (R44). Encoding that instruction gives the word back for every word but a
bare magnitude byte: of these, `0x00` (K_M7) gives itself back, and each of the other 127 is encoded as the raw byte it also is.
That a bare magnitude byte is a word, and how the rows are encoded, is the model's choice (assumption 4). -/
def Obligations.EveryWordDecodesAndEncodesBack : Prop :=
  ∀ w : PortWord, WellFormed (decode w) ∧
    ((∀ m, w ≠ .magnitude m) → encode (decode w) = w) ∧
    (∀ m, w = .magnitude m → m ≠ 0#7 → encode (decode w) = .posit (m.setWidth 8)) ∧
    (w = .magnitude 0#7 → encode (decode w) = w)

/-- Words written out from the table's patterns decode to the rows they stand for. That a table word is a raw byte or a binary32
word is the model's choice (assumption 4). -/
def Obligations.TablePatternsDecodeToTheirRows : Prop :=
  decodeTableWord 8 0b00000000 = some .zero ∧
  decodeTableWord 8 0b10000000 = some .nar ∧
  decodeTableWord 8 0b01111101 = some (.kP4 false 1#1) ∧
  decodeTableWord 8 0b01110011 = some (.kP2 false 3#3) ∧
  decodeTableWord 8 0b11110011 = some (.kM3 true 5#3) ∧
  decodeTableWord 32 0b11111111100000000000000000000000 = some (.f32Inf true) ∧
  decodeTableWord 32 0b01111111110000000000000000000000 = some (.f32Nan false 0x400000#23) ∧
  decodeTableWord 32 0b10111111110000000000000000000000 = some (.f32Normal true 127#8 0x400000#23)

/-- The table of R36 (derived in the spec), row by row (k, first and last magnitude byte, rem): UNPACK of a magnitude byte of a
row reports the row's `k` (R64, derived in the spec) and its low `rem` bits as the fraction (R65), left-aligned in 6 bits (R39,
decision D1 of the spec, assumption 8); and every magnitude byte is of exactly one row. -/
def Obligations.MagnitudeTableIsWhatUnpackReads : Prop :=
  let table : List (Int × BitVec 8 × BitVec 8 × Nat) :=
    [(6, 0x7F, 0x7F, 0), (5, 0x7E, 0x7E, 0), (4, 0x7C, 0x7D, 1), (3, 0x78, 0x7B, 2), (2, 0x70, 0x77, 3),
     (1, 0x60, 0x6F, 4), (0, 0x40, 0x5F, 5), (-1, 0x20, 0x3F, 5), (-2, 0x10, 0x1F, 4), (-3, 0x08, 0x0F, 3),
     (-4, 0x04, 0x07, 2), (-5, 0x02, 0x03, 1), (-6, 0x01, 0x01, 0), (-7, 0x00, 0x00, 0)]
  (∀ (s : State) (m : BitVec 8), ∀ row ∈ table, row.2.1 ≤ m → m ≤ row.2.2.1 →
    exec (.unpack m) s = .next { s with unpack := { byte := m, fields := {
      sign := false
      k := BitVec.ofInt 4 row.1
      exponent := 0#1
      fraction := BitVec.ofNat 6 (m.toNat % 2 ^ row.2.2.2 * 2 ^ (6 - row.2.2.2)) } } }) ∧
  (∀ m : BitVec 8, m ≤ 0x7F#8 → ∃ row ∈ table, row.2.1 ≤ m ∧ m ≤ row.2.2.1 ∧
    ∀ other ∈ table, other.2.1 ≤ m → m ≤ other.2.2.1 → other = row) ∧
  (∀ m : BitVec 8, m ≤ 0x7F#8 → (magnitudeRows.filter (fun row => row.hits m)).length = 1)

/-! ### PACK -/

/-- Negation of a byte (R7): `neg8(b) = (256 − b) mod 256`, its two fixed points, and that it undoes itself. -/
def Obligations.NegatingAByteTwiceGivesItBack : Prop :=
  ∀ b : BitVec 8, (neg8 b).toNat = (256 - b.toNat) % 256 ∧ neg8 (neg8 b) = b ∧
    (neg8 b = b ↔ b = 0x00#8 ∨ b = 0x80#8)

/-- PACK in the order the hardware applies its rules: the regime pattern (R51) placed from bit 6 downward and cut at bit 0,
with bit 7 clear (R52), the top `rem` bits of the fraction below it (R53), the sign last, with no effect on `0x00` (R54). -/
def Obligations.PackPlacesRegimeFractionAndSign : Prop :=
  ∀ (s : State) (sign : Bool) (k : BitVec 9) (e : BitVec 1) (F : BitVec 6) (L : Int) (rem : Nat),
    L = (if 0 ≤ k.toInt then k.toInt + 2 else -k.toInt + 1) → rem = (7 - L).toNat →
    ∃ mag : BitVec 8,
      exec (.pack sign k e F) s = .next { s with pack :=
        { inputs := { sign, k, exponent := e, fraction := F }, byte := if sign then neg8 mag else mag } } ∧
      mag.getLsbD 7 = false ∧
      (∀ i : Nat, i ≤ 6 → (i : Int) < L →
        mag.getLsbD (6 - i) = if 0 ≤ k.toInt then decide ((i : Int) ≤ k.toInt) else decide ((i : Int) = -k.toInt)) ∧
      (∀ j : Nat, j < rem → mag.getLsbD j = F.getLsbD (6 - rem + j)) ∧
      (mag = 0x00#8 → (if sign then neg8 mag else mag) = 0x00#8)

/-- The closed form of PACK by range of `k` (R55). -/
def Obligations.PackClosedFormByRegime : Prop :=
  ∀ (s : State) (sign : Bool) (k : BitVec 9) (e : BitVec 1) (F : BitVec 6) (mag : Nat),
    mag = (if 6 ≤ k.toInt then 0x7F
      else if 0 ≤ k.toInt then ((2 ^ (k.toInt.toNat + 1) - 1) <<< (6 - k.toInt.toNat)) ||| (F.toNat >>> (k.toInt.toNat + 1))
      else if -6 ≤ k.toInt then (1 <<< (6 + k.toInt).toNat) ||| (F.toNat >>> (-k.toInt).toNat)
      else 0x00) →
    exec (.pack sign k e F) s = .next { s with pack :=
      { inputs := { sign, k, exponent := e, fraction := F }
        byte := BitVec.ofNat 8 (if sign then (256 - mag) % 256 else mag) } }

/-- The `exponent` input does not influence the output (R56). -/
def Obligations.PackIgnoresTheExponent : Prop :=
  ∀ (s : State) (sign : Bool) (k : BitVec 9) (e e' : BitVec 1) (F : BitVec 6), ∃ p : PositByte,
    exec (.pack sign k e F) s = .next { s with pack :=
      { inputs := { sign, k, exponent := e, fraction := F }, byte := p } } ∧
    exec (.pack sign k e' F) s = .next { s with pack :=
      { inputs := { sign, k, exponent := e', fraction := F }, byte := p } }

/-- A regime that does not fit (R57): `k ≥ 6` saturates at magnitude `0x7F`, `k ≤ −7` flushes to `0x00` for either sign, and
the values from −7 to 6 are told apart. The flush to `0x00` is decision D5 of the spec. -/
def Obligations.PackSaturatesAndFlushes : Prop :=
  (∀ (s : State) (k k' : BitVec 9) (e : BitVec 1) (F : BitVec 6), -7 ≤ k.toInt → k.toInt < k'.toInt → k'.toInt ≤ 6 →
    ∃ p p' : PositByte,
      exec (.pack false k e F) s = .next { s with pack :=
        { inputs := { sign := false, k, exponent := e, fraction := F }, byte := p } } ∧
      exec (.pack false k' e F) s = .next { s with pack :=
        { inputs := { sign := false, k := k', exponent := e, fraction := F }, byte := p' } } ∧ p ≠ p') ∧
  ∀ (s : State) (sign : Bool) (k : BitVec 9) (e : BitVec 1) (F : BitVec 6),
    (6 ≤ k.toInt → exec (.pack sign k e F) s = .next { s with pack :=
      { inputs := { sign, k, exponent := e, fraction := F }, byte := if sign then 0x81#8 else 0x7F#8 } }) ∧
    (k.toInt ≤ -7 → exec (.pack sign k e F) s = .next { s with pack :=
      { inputs := { sign, k, exponent := e, fraction := F }, byte := 0x00#8 } })

/-- PACK never returns NaR, and returns `0x00` exactly when `k ≤ −7`; so NaR comes out of posit8_encoder for no finite input
(R58, derived in the spec). -/
def Obligations.PackNeverReturnsNaR : Prop :=
  (∀ (s : State) (x : Binary32), floatExponent x ≠ 0xFF#8 → ∃ p : PositByte,
    exec (.fromFloat x) s = .next { s with encoder := { fIn := x, pOut := p } } ∧ p ≠ 0x80#8) ∧
  ∀ (s : State) (sign : Bool) (k : BitVec 9) (e : BitVec 1) (F : BitVec 6), ∃ p : PositByte,
    exec (.pack sign k e F) s = .next { s with pack :=
      { inputs := { sign, k, exponent := e, fraction := F }, byte := p } } ∧
    p ≠ 0x80#8 ∧ (p = 0x00#8 ↔ k.toInt ≤ -7)

/-! ### UNPACK -/

/-- UNPACK of a byte other than `0x80`, with `m` its magnitude byte and `d` the bit of `m` at position 6: the sign is bit 7
(R62); the run of bits equal to `d` from position 6 down, bounded at position 0, has a length `r` from 1 to 7, and 7 exactly
for the two magnitude bytes with no terminator (R63); the fraction is the bits below the terminator, left-aligned in 6
(R65), so that its low `6 − rem` bits are 0; the exponent is 0 (R66). -/
def Obligations.UnpackReadsSignRunAndFraction : Prop :=
  ∀ (s : State) (b m : BitVec 8) (d : Bool), b ≠ 0x80#8 → m = (if b.getLsbD 7 then neg8 b else b) → d = m.getLsbD 6 →
    m.toNat ≤ 0x7F ∧
    ∃ (r : Nat) (k : BitVec 4), 1 ≤ r ∧ r ≤ 7 ∧ (∀ i : Nat, i < r → m.getLsbD (6 - i) = d) ∧
      (r ≤ 6 → m.getLsbD (6 - r) = !d) ∧ (r = 7 ↔ m = 0x7F#8 ∨ m = 0x00#8) ∧
      exec (.unpack b) s = .next { s with unpack := { byte := b, fields := {
        sign := b.getLsbD 7
        k := k
        exponent := 0#1
        fraction := if r ≤ 5 then BitVec.ofNat 6 (m.toNat % 2 ^ (6 - r) * 2 ^ r) else 0#6 } } }

/-- The regime value that UNPACK reports for a run of length `r` (R64, derived in the spec from R51 and R102): `k = r − 1` for a
run of ones, `k = −r` for a run of zeros. -/
def Obligations.UnpackRegimeValueOfTheRun : Prop :=
  ∀ (s : State) (b m : BitVec 8) (d : Bool) (r : Nat), b ≠ 0x80#8 → m = (if b.getLsbD 7 then neg8 b else b) →
    d = m.getLsbD 6 → 1 ≤ r → r ≤ 7 → (∀ i : Nat, i < r → m.getLsbD (6 - i) = d) → (r ≤ 6 → m.getLsbD (6 - r) = !d) →
    ∃ f : DecodedFields, exec (.unpack b) s = .next { s with unpack := { byte := b, fields := f } } ∧
      f.k.toInt = (if d then (r : Int) - 1 else -(r : Int)) ∧
      (d = true → 0 ≤ f.k.toInt ∧ f.k.toInt ≤ 6) ∧ (d = false → -7 ≤ f.k.toInt ∧ f.k.toInt ≤ -1)

/-- UNPACK of NaR is the all-zero tuple, the same tuple as UNPACK of `0x40`, the value 1 (R61, the contract that
decision D9 of the spec keeps). -/
def Obligations.UnpackOfNaRIsTheTupleOfOne : Prop :=
  ∀ s : State, ∃ tuple : DecodedFields,
    tuple = { sign := false, k := 0#4, exponent := 0#1, fraction := 0#6 } ∧
    exec (.unpack 0x80#8) s = .next { s with unpack := { byte := 0x80#8, fields := tuple } } ∧
    exec (.unpack 0x40#8) s = .next { s with unpack := { byte := 0x40#8, fields := tuple } }

/-- UNPACK has no special case for `0x00`: it reports `k = −7`, and PACK of that gives `0x00` back (R68, derived
in the spec). -/
def Obligations.UnpackOfZeroReportsMinusSeven : Prop :=
  ∀ s : State,
    exec (.unpack 0x00#8) s = .next { s with unpack := { byte := 0x00#8, fields :=
      { sign := false, k := BitVec.ofInt 4 (-7), exponent := 0#1, fraction := 0#6 } } } ∧
    exec (.pack false (BitVec.ofInt 9 (-7)) 0#1 0#6) s = .next { s with pack :=
      { inputs := { sign := false, k := BitVec.ofInt 9 (-7), exponent := 0#1, fraction := 0#6 }, byte := 0x00#8 } }

/-- Decoding a byte and encoding the fields again gives the byte, for every byte but `0x80`; for that one it gives `0x40`
(R102). -/
def Obligations.PackUndoesUnpack : Prop :=
  ∀ (s : State) (b : PositByte), ∃ (d : DecodedFields) (p : PositByte),
    exec (.unpack b) s = .next { s with unpack := { byte := b, fields := d } } ∧
    exec (.pack d.sign (d.k.signExtend 9) d.exponent d.fraction) s = .next { s with pack :=
      { inputs := { sign := d.sign, k := d.k.signExtend 9, exponent := d.exponent, fraction := d.fraction }, byte := p } } ∧
    (b ≠ 0x80#8 → p = b) ∧ (b = 0x80#8 → p = 0x40#8)

/-- Encoding fields and decoding the byte (R111): `k` in range comes back with the fraction cut to the bits that fit, `k ≥ 6`
comes back as 6 and `k ≤ −7` as (0, −7, 0, 0). R111 is derived in the spec. -/
def Obligations.UnpackOfPackCutsTheFraction : Prop :=
  ∀ (s : State) (sign : Bool) (k : BitVec 9) (e : BitVec 1) (F : BitVec 6) (rem : Nat),
    rem = (if 0 ≤ k.toInt then 5 - k.toInt else 6 + k.toInt).toNat →
    ∃ (p : PositByte) (d : DecodedFields),
      exec (.pack sign k e F) s = .next { s with pack :=
        { inputs := { sign, k, exponent := e, fraction := F }, byte := p } } ∧
      exec (.unpack p) s = .next { s with unpack := { byte := p, fields := d } } ∧
      (-6 ≤ k.toInt → k.toInt ≤ 5 → d.sign = sign ∧ d.k.toInt = k.toInt ∧ d.exponent = 0#1 ∧
        d.fraction.toNat = F.toNat / 2 ^ (6 - rem) * 2 ^ (6 - rem)) ∧
      (6 ≤ k.toInt → d.sign = sign ∧ d.k.toInt = 6 ∧ d.exponent = 0#1 ∧ d.fraction = 0#6) ∧
      (k.toInt ≤ -7 → p = 0x00#8 ∧ d.sign = false ∧ d.k.toInt = -7 ∧ d.exponent = 0#1 ∧ d.fraction = 0#6)

/-- Negation (R112): PACK with the sign set gives the negated byte, and UNPACK of the negated byte gives the same fields with
the sign inverted, for every byte but the two fixed points of `neg8`; the negated byte denotes the negated number. R112 is derived
in the spec. -/
def Obligations.NegatingTheByteInvertsTheSign : Prop :=
  (∀ (s : State) (k : BitVec 9) (e : BitVec 1) (F : BitVec 6), ∃ p : PositByte,
    exec (.pack false k e F) s = .next { s with pack :=
      { inputs := { sign := false, k, exponent := e, fraction := F }, byte := p } } ∧
    exec (.pack true k e F) s = .next { s with pack :=
      { inputs := { sign := true, k, exponent := e, fraction := F }, byte := neg8 p } }) ∧
  (∀ (s : State) (b : PositByte), b ≠ 0x00#8 → b ≠ 0x80#8 → ∃ d : DecodedFields,
    exec (.unpack b) s = .next { s with unpack := { byte := b, fields := d } } ∧
    exec (.unpack (neg8 b)) s = .next { s with unpack := { byte := neg8 b, fields := { d with sign := !d.sign } } }) ∧
  (∀ (b : PositByte) (v : ℚ), byteValue b = some v → byteValue (neg8 b) = some (-v)) ∧
  neg8 0x00#8 = 0x00#8 ∧ neg8 0x80#8 = 0x80#8

/-! ### FROMFLOAT -/

/-- Every NaN, quiet or signalling, of either sign, and both infinities give NaR (R71 with decision D13, R72 by
decision D2 of the spec). -/
def Obligations.NonFiniteInputsGiveNaR : Prop :=
  ∀ (s : State) (x : Binary32), floatExponent x = 0xFF#8 →
    exec (.fromFloat x) s = .next { s with encoder := { fIn := x, pOut := 0x80#8 } }

/-- Both zeros and every subnormal give `0x00` (R73 and R83, derived in the spec). -/
def Obligations.ZerosAndSubnormalsGiveZero : Prop :=
  ∀ (s : State) (x : Binary32), floatExponent x = 0x00#8 →
    exec (.fromFloat x) s = .next { s with encoder := { fIn := x, pOut := 0x00#8 } }

/-- The range table of R81: the magnitude byte of a normal input by its biased exponent `E` and the top significand bits
`F = M[22:17]`; the output is that byte, or its negation when the sign bit is set. R81 is derived
in the spec from R78 and R55. -/
def Obligations.EncoderRangeTable : Prop :=
  ∀ (s : State) (x : Binary32) (E F : Nat) (mag : BitVec 8),
    E = (x.extractLsb 30 23).toNat → F = (x.extractLsb 22 17).toNat → 1 ≤ E → E ≤ 254 →
    mag = BitVec.ofNat 8 (
      if E ≤ 120 then 0x00
      else if E = 121 then 0x01
      else if E = 122 then 0x02 ||| F / 32
      else if E = 123 then 0x04 ||| F / 16
      else if E = 124 then 0x08 ||| F / 8
      else if E = 125 then 0x10 ||| F / 4
      else if E = 126 then 0x20 ||| F / 2
      else if E = 127 then 0x40 ||| F / 2
      else if E = 128 then 0x60 ||| F / 4
      else if E = 129 then 0x70 ||| F / 8
      else if E = 130 then 0x78 ||| F / 16
      else if E = 131 then 0x7C ||| F / 32
      else if E = 132 then 0x7E
      else 0x7F) →
    exec (.fromFloat x) s = .next { s with encoder :=
      { fIn := x, pOut := if x.getLsbD 31 then neg8 mag else mag } }

/-- FROMFLOAT in the document's arithmetic (R74 to R78, R80): for a finite non-zero input of value `v`, with `e` the integer
with `2^e ≤ |v| < 2^(e+1)` and `F = floor((|v| / 2^e − 1) × 64)`, the output is PACK(v < 0, e, 0, F). The sign is bit 31 and
`|v|` the input with it cleared (R74); `e` is `E − 127` for a normal input and `−149 + floor(log2(M))` for a subnormal (R75),
and `F` is `M[22:17]` for a normal one (R76). That `e` is exact is decision D4 of the spec. -/
def Obligations.EncoderIsTheDocumentsArithmetic : Prop :=
  ∀ (s : State) (x : Binary32) (v : ℚ) (e F : ℤ), floatValue x = some v → v ≠ 0 →
    (2 : ℚ) ^ e ≤ |v| → |v| < (2 : ℚ) ^ (e + 1) → F = ⌊(|v| / (2 : ℚ) ^ e - 1) * 64⌋ →
    x.getLsbD 31 = decide (v < 0) ∧ floatValue (x &&& 0x7FFFFFFF#32) = some |v| ∧
    (isNormal x = true → e = ((x.extractLsb 30 23).toNat : ℤ) - 127 ∧ F = (x.extractLsb 22 17).toNat) ∧
    (isSubnormal x = true → e = -149 + (Nat.log2 (x.extractLsb 22 0).toNat : ℤ)) ∧
    -149 ≤ e ∧ e ≤ 127 ∧ 0 ≤ F ∧ F ≤ 63 ∧ ∃ p : PositByte,
      exec (.pack (decide (v < 0)) (BitVec.ofInt 9 e) 0#1 (BitVec.ofInt 6 F)) s = .next { s with pack :=
        { inputs := { sign := decide (v < 0), k := BitVec.ofInt 9 e, exponent := 0#1, fraction := BitVec.ofInt 6 F }
          byte := p } } ∧
      exec (.fromFloat x) s = .next { s with encoder := { fIn := x, pOut := p } }

/-- Rounding is one truncation toward zero (R79): for an input of value `v` with `2^k ≤ |v| < 2^(k+1)` and `−6 ≤ k ≤ 5`, the
byte denotes `2^k × (1 + field / 2^rem)` with the sign of `v`, where `field = floor(frac × 2^rem)`. What a byte denotes
(R38) rests on decision D1 of the spec. -/
def Obligations.EncoderTruncatesOnce : Prop :=
  ∀ (s : State) (x : Binary32) (v : ℚ) (k : ℤ) (rem : Nat), floatValue x = some v →
    -6 ≤ k → k ≤ 5 → (2 : ℚ) ^ k ≤ |v| → |v| < (2 : ℚ) ^ (k + 1) → rem = (if 0 ≤ k then 5 - k else 6 + k).toNat →
    ∃ p : PositByte, exec (.fromFloat x) s = .next { s with encoder := { fIn := x, pOut := p } } ∧
      byteValue p = some (signFactor (decide (v < 0)) * (2 : ℚ) ^ k *
        (1 + (⌊(|v| / (2 : ℚ) ^ k - 1) * 2 ^ rem⌋ : ℚ) / 2 ^ rem))

/-- The direction of the error (R84): the byte of a finite input denotes a number whose magnitude is not greater, and that
is 0 or has the input's sign. R84 is derived in the spec. -/
def Obligations.EncoderNeverGrowsTheMagnitude : Prop :=
  ∀ (s : State) (x : Binary32) (v : ℚ), floatValue x = some v → ∃ (p : PositByte) (y : ℚ),
    exec (.fromFloat x) s = .next { s with encoder := { fIn := x, pOut := p } } ∧ byteValue p = some y ∧
    |y| ≤ |v| ∧ (y = 0 ∨ 0 < y * v)

/-- The conversion error (R110): `y` is the real value of TOFLOAT(FROMFLOAT(x)) for a finite input of value `v`. R110 is derived in
the spec. -/
def Obligations.ConversionErrorIsBounded : Prop :=
  ∀ (s : State) (x : Binary32) (v : ℚ), floatValue x = some v → ∃ (p : PositByte) (f : Binary32) (y : ℚ),
    exec (.fromFloat x) s = .next { s with encoder := { fIn := x, pOut := p } } ∧
    exec (.toFloat p) s = .next { s with decoder := { pIn := p, fOut := f } } ∧ floatValue f = some y ∧
    (|v| < (2 : ℚ) ^ (-6 : ℤ) → y = 0) ∧
    (∀ (k : ℤ) (rem : Nat), -6 ≤ k → k ≤ 5 → (2 : ℚ) ^ k ≤ |v| → |v| < (2 : ℚ) ^ (k + 1) →
      rem = (if 0 ≤ k then 5 - k else 6 + k).toNat →
      0 < y * v ∧ |y| ≤ |v| ∧ |v| - |y| < (2 : ℚ) ^ (k - rem) ∧ |v| - |y| < |v| / 2 ^ rem) ∧
    (64 ≤ |v| → |y| = 64) ∧
    (y = v ↔ ∃ b : PositByte, byteValue b = some v)

/-- Monotonicity (R108, R104): for finite inputs in ascending order the bytes, as signed integers, do not descend, and none
is −128; and the signed order of bytes other than `0x80` is the order of the values they denote. R108
is derived in the spec. -/
def Obligations.ByteOrderIsValueOrder : Prop :=
  (∀ (s : State) (x y : Binary32) (v w : ℚ), floatValue x = some v → floatValue y = some w → v ≤ w →
    ∃ p q : PositByte, exec (.fromFloat x) s = .next { s with encoder := { fIn := x, pOut := p } } ∧
      exec (.fromFloat y) s = .next { s with encoder := { fIn := y, pOut := q } } ∧
      -127 ≤ p.toInt ∧ p.toInt ≤ q.toInt) ∧
  (∀ (b c : PositByte) (v w : ℚ), byteValue b = some v → byteValue c = some w → (b.toInt < c.toInt ↔ v < w))

/-- Sign antisymmetry, exact (R103): negating a finite input negates the byte, and, when that is not `0x00`, the two floats
that come back differ in bit 31 only; when it is, both are +0.0. -/
def Obligations.NegatingTheFloatNegatesTheByte : Prop :=
  ∀ (s : State) (x : Binary32), floatExponent x ≠ 0xFF#8 → ∃ (p : PositByte) (f g : Binary32),
    exec (.fromFloat x) s = .next { s with encoder := { fIn := x, pOut := p } } ∧
    exec (.fromFloat (x ^^^ 0x80000000#32)) s = .next { s with encoder :=
      { fIn := x ^^^ 0x80000000#32, pOut := neg8 p } } ∧
    exec (.toFloat p) s = .next { s with decoder := { pIn := p, fOut := f } } ∧
    exec (.toFloat (neg8 p)) s = .next { s with decoder := { pIn := neg8 p, fOut := g } } ∧
    (p ≠ 0x00#8 → g = f ^^^ 0x80000000#32) ∧ (p = 0x00#8 → f = 0x00000000#32 ∧ g = 0x00000000#32)

/-- Where NaR comes from (R113): FROMFLOAT gives `0x80` if and only if the input is a NaN or an infinity. R113
is derived in the spec and rests, for the infinities, on decision D2. -/
def Obligations.NaRComesFromNonFiniteInputsOnly : Prop :=
  ∀ (s : State) (x : Binary32), ∃ p : PositByte,
    exec (.fromFloat x) s = .next { s with encoder := { fIn := x, pOut := p } } ∧
    (p = 0x80#8 ↔ isNaN x = true ∨ isInfinite x = true) ∧ (p = 0x80#8 ↔ (x.extractLsb 30 23).toNat = 255)

/-- Where zero comes from (R114): FROMFLOAT gives `0x00` if and only if the input is finite with `|x| < 2^−6`, that is
`E ≤ 120`. R114 is derived in the spec. -/
def Obligations.ZeroComesFromSmallInputsOnly : Prop :=
  ∀ (s : State) (x : Binary32), ∃ p : PositByte,
    exec (.fromFloat x) s = .next { s with encoder := { fIn := x, pOut := p } } ∧
    (p = 0x00#8 ↔ ∃ v, floatValue x = some v ∧ |v| < (2 : ℚ) ^ (-6 : ℤ)) ∧
    (p = 0x00#8 ↔ (x.extractLsb 30 23).toNat ≤ 120)

/-- The pre-image of each byte (spec/95_test_vectors.md section 2.3), as intervals of patterns read as unsigned integers;
`f` and `g` are TOFLOAT of a byte `0x01 ≤ b ≤ 0x7E` and of its successor. -/
def Obligations.EachByteHasAnIntervalOfInputs : Prop :=
  ∀ s : State,
    (∀ b : PositByte, 0x01 ≤ b.toNat → b.toNat ≤ 0x7E → ∃ f g : Binary32,
      exec (.toFloat b) s = .next { s with decoder := { pIn := b, fOut := f } } ∧
      exec (.toFloat (b + 1#8)) s = .next { s with decoder := { pIn := b + 1#8, fOut := g } } ∧
      ∀ x : Binary32,
        (exec (.fromFloat x) s = .next { s with encoder := { fIn := x, pOut := b } } ↔
          f.toNat ≤ x.toNat ∧ x.toNat < g.toNat) ∧
        (exec (.fromFloat x) s = .next { s with encoder := { fIn := x, pOut := neg8 b } } ↔
          2 ^ 31 + f.toNat ≤ x.toNat ∧ x.toNat < 2 ^ 31 + g.toNat)) ∧
    (∀ x : Binary32,
      (exec (.fromFloat x) s = .next { s with encoder := { fIn := x, pOut := 0x00#8 } } ↔
        x.toNat ≤ 0x3C7FFFFF ∨ 0x80000000 ≤ x.toNat ∧ x.toNat ≤ 0xBC7FFFFF) ∧
      (exec (.fromFloat x) s = .next { s with encoder := { fIn := x, pOut := 0x7F#8 } } ↔
        0x42800000 ≤ x.toNat ∧ x.toNat ≤ 0x7F7FFFFF) ∧
      (exec (.fromFloat x) s = .next { s with encoder := { fIn := x, pOut := 0x81#8 } } ↔
        0xC2800000 ≤ x.toNat ∧ x.toNat ≤ 0xFF7FFFFF) ∧
      (exec (.fromFloat x) s = .next { s with encoder := { fIn := x, pOut := 0x80#8 } } ↔
        0x7F800000 ≤ x.toNat ∧ x.toNat ≤ 0x7FFFFFFF ∨ 0xFF800000 ≤ x.toNat))

/-- The parameter INF_POLICY (U1): under the policy the spec did not take, +∞ gives `0x7F` and −∞ gives `0x81`, and no other
input gives another byte than under the spec's. -/
def Obligations.InfinityPolicyChangesOnlyInfinities : Prop :=
  encodeFloat .saturate 0x7F800000#32 = 0x7F#8 ∧ encodeFloat .saturate 0xFF800000#32 = 0x81#8 ∧
  encodeFloat .nar 0x7F800000#32 = 0x80#8 ∧ encodeFloat .nar 0xFF800000#32 = 0x80#8 ∧
  ∀ x : Binary32, x ≠ 0x7F800000#32 → x ≠ 0xFF800000#32 → encodeFloat .saturate x = encodeFloat .nar x

/-! ### TOFLOAT -/

/-- `0x00` gives +0.0 (R86, decision D15 of the spec), and `0x80` gives a NaN (R87); which NaN is free (decision D3,
assumption 1). -/
def Obligations.DecoderOfZeroAndNaR : Prop :=
  ∀ s : State,
    exec (.toFloat 0x00#8) s = .next { s with decoder := { pIn := 0x00#8, fOut := 0x00000000#32 } } ∧
    ∃ f : Binary32, (f.extractLsb 30 23).toNat = 255 ∧ (f.extractLsb 22 0).toNat ≠ 0 ∧
      exec (.toFloat 0x80#8) s = .next { s with decoder := { pIn := 0x80#8, fOut := f } }

/-- The output word of an ordinary byte, field by field, from UNPACK's fields of it (R90, derived in the spec). -/
def Obligations.DecoderOutputWord : Prop :=
  ∀ (s : State) (b : PositByte), b ≠ 0x00#8 → b ≠ 0x80#8 → ∃ (d : DecodedFields) (f : Binary32),
    exec (.unpack b) s = .next { s with unpack := { byte := b, fields := d } } ∧
    exec (.toFloat b) s = .next { s with decoder := { pIn := b, fOut := f } } ∧
    f.getLsbD 31 = d.sign ∧ ((f.extractLsb 30 23).toNat : Int) = d.k.toInt + 127 ∧
    f.extractLsb 22 17 = d.fraction ∧ f.extractLsb 16 0 = 0#17 ∧
    121 ≤ (f.extractLsb 30 23).toNat ∧ (f.extractLsb 30 23).toNat ≤ 133

/-- TOFLOAT of an ordinary byte is exactly the number the byte denotes, and that is `±2^k × (1 + F/64)` of UNPACK's fields of
it, with `−6 ≤ k ≤ 6` and `F` even and at most 62 (R88, R38). The divisor 64 is decision D1 of the spec. -/
def Obligations.DecoderGivesTheBytesValue : Prop :=
  ∀ (s : State) (b : PositByte), b ≠ 0x00#8 → b ≠ 0x80#8 → ∃ (d : DecodedFields) (f : Binary32) (v : ℚ),
    exec (.unpack b) s = .next { s with unpack := { byte := b, fields := d } } ∧
    exec (.toFloat b) s = .next { s with decoder := { pIn := b, fOut := f } } ∧
    -6 ≤ d.k.toInt ∧ d.k.toInt ≤ 6 ∧ d.fraction.toNat ≤ 62 ∧ d.fraction.toNat % 2 = 0 ∧
    v = signFactor d.sign * ((2 : ℚ) ^ d.k.toInt * (1 + (d.fraction.toNat : ℚ) / 64)) ∧
    floatValue f = some v ∧ byteValue b = some v

/-- The image of TOFLOAT on the ordinary bytes (R93, derived in the spec): each gives a normal float of the number it denotes,
with a magnitude from 1/64 to 64; no other byte gives the same float; negating the byte flips bit 31; and the numbers of the
floats that come out are exactly `±2^k × (1 + j / 2^rem(k))` with `−6 ≤ k ≤ 6` and `0 ≤ j < 2^rem(k)`. What a byte denotes (R38)
rests on decision D1 of the spec. -/
def Obligations.DecoderImage : Prop :=
  (∀ (s : State) (b : PositByte), b ≠ 0x00#8 → b ≠ 0x80#8 → ∃ (f : Binary32) (v : ℚ),
    exec (.toFloat b) s = .next { s with decoder := { pIn := b, fOut := f } } ∧ isNormal f = true ∧
    floatValue f = some v ∧ byteValue b = some v ∧ (1 : ℚ) / 64 ≤ |v| ∧ |v| ≤ 64 ∧
    exec (.toFloat (neg8 b)) s = .next { s with decoder := { pIn := neg8 b, fOut := f ^^^ 0x80000000#32 } } ∧
    ∀ c : PositByte, exec (.toFloat c) s = .next { s with decoder := { pIn := c, fOut := f } } → c = b) ∧
  (∀ (s : State) (v : ℚ),
    (∃ (b : PositByte) (f : Binary32), b ≠ 0x00#8 ∧ b ≠ 0x80#8 ∧
      exec (.toFloat b) s = .next { s with decoder := { pIn := b, fOut := f } } ∧ floatValue f = some v) ↔
    ∃ (sign : Bool) (k : ℤ) (j : Nat), -6 ≤ k ∧ k ≤ 6 ∧ j < 2 ^ (if 0 ≤ k then 5 - k else 6 + k).toNat ∧
      v = signFactor sign * (2 : ℚ) ^ k * (1 + (j : ℚ) / 2 ^ (if 0 ≤ k then 5 - k else 6 + k).toNat))

/-- Decoding and encoding again gives the byte, for every one of the 256 bytes, whichever NaN comes out for `0x80` (R109,
derived in the spec). -/
def Obligations.FromFloatOfToFloatIsTheByte : Prop :=
  ∀ (s : State) (b : PositByte), ∃ f : Binary32,
    exec (.toFloat b) s = .next { s with decoder := { pIn := b, fOut := f } } ∧
    exec (.fromFloat f) s = .next { s with encoder := { fIn := f, pOut := b } }

/-- The extremes of the format (R45): maxpos 64, minpos 1/64, their negatives, and ±1, as the decoder gives them; R45 is derived in the spec. -/
def Obligations.ExtremeBytesDecodeToTheirValues : Prop :=
  ∀ s : State,
    exec (.toFloat 0x7F#8) s = .next { s with decoder := { pIn := 0x7F#8, fOut := 0x42800000#32 } } ∧
    exec (.toFloat 0x01#8) s = .next { s with decoder := { pIn := 0x01#8, fOut := 0x3C800000#32 } } ∧
    exec (.toFloat 0x81#8) s = .next { s with decoder := { pIn := 0x81#8, fOut := 0xC2800000#32 } } ∧
    exec (.toFloat 0xFF#8) s = .next { s with decoder := { pIn := 0xFF#8, fOut := 0xBC800000#32 } } ∧
    exec (.toFloat 0x40#8) s = .next { s with decoder := { pIn := 0x40#8, fOut := 0x3F800000#32 } } ∧
    exec (.toFloat 0xC0#8) s = .next { s with decoder := { pIn := 0xC0#8, fOut := 0xBF800000#32 } } ∧
    floatValue 0x42800000#32 = some 64 ∧ floatValue 0x3C800000#32 = some (1 / 64) ∧
    floatValue 0xC2800000#32 = some (-64) ∧ floatValue 0xBC800000#32 = some (-1 / 64) ∧
    floatValue 0x3F800000#32 = some 1 ∧ floatValue 0xBF800000#32 = some (-1)

/-- The document's round trips: zero of either sign (R100); and NaN (R101, without the infinities that decision D2 of the spec
adds to it): every NaN pattern, of either sign, gives `0x80` (R71 with decision D13 of the spec), and `0x80` gives a NaN (R87),
which one being free (decision D3, assumption 1). -/
def Obligations.ZeroAndNaNRoundTrip : Prop :=
  ∀ s : State,
    exec (.fromFloat 0x00000000#32) s = .next { s with encoder := { fIn := 0x00000000#32, pOut := 0x00#8 } } ∧
    exec (.fromFloat 0x80000000#32) s = .next { s with encoder := { fIn := 0x80000000#32, pOut := 0x00#8 } } ∧
    exec (.toFloat 0x00#8) s = .next { s with decoder := { pIn := 0x00#8, fOut := 0x00000000#32 } } ∧
    (∀ x : Binary32, (x.extractLsb 30 23).toNat = 255 → (x.extractLsb 22 0).toNat ≠ 0 →
      exec (.fromFloat x) s = .next { s with encoder := { fIn := x, pOut := 0x80#8 } }) ∧
    ∃ f : Binary32, isNaN f = true ∧
      exec (.toFloat 0x80#8) s = .next { s with decoder := { pIn := 0x80#8, fOut := f } }

/-- The document's scenarios: 1.0 (R105), 2.0 (R106), 0.5 and −1.0 (R107), all exact. -/
def Obligations.DocumentScenariosRoundTrip : Prop :=
  ∀ s : State,
    exec (.fromFloat 0x3F800000#32) s = .next { s with encoder := { fIn := 0x3F800000#32, pOut := 0b01000000#8 } } ∧
    exec (.fromFloat 0x40000000#32) s = .next { s with encoder := { fIn := 0x40000000#32, pOut := 0x60#8 } } ∧
    exec (.toFloat 0x60#8) s = .next { s with decoder := { pIn := 0x60#8, fOut := 0x40000000#32 } } ∧
    exec (.fromFloat 0x3F000000#32) s = .next { s with encoder := { fIn := 0x3F000000#32, pOut := 0x20#8 } } ∧
    exec (.toFloat 0x20#8) s = .next { s with decoder := { pIn := 0x20#8, fOut := 0x3F000000#32 } } ∧
    exec (.fromFloat 0xBF800000#32) s = .next { s with encoder := { fIn := 0xBF800000#32, pOut := 0xC0#8 } } ∧
    exec (.toFloat 0xC0#8) s = .next { s with decoder := { pIn := 0xC0#8, fOut := 0xBF800000#32 } }

/-- The parameter DIV (U3, decision D1): with the literal divisor 128, 1.5 comes back as 1.25, and decoding and encoding again
is not the identity on bytes. -/
def Obligations.DivisorOf128BreaksTheRoundTrip : Prop :=
  decodeByte .div64 0x50#8 = 0x3FC00000#32 ∧ decodeByte .div128 0x50#8 = 0x3FA00000#32 ∧
  encodeFloat .nar (decodeByte .div128 0x50#8) = 0x48#8 ∧
  ∀ b : PositByte, byteValue b ≠ none → (floatValue (decodeByte .div128 b) = byteValue b ↔
    (unpackByte b).fraction = 0#6)

/-! ### The pattern rows -/

/-- The rows K_P6 to K_P0 and K_M1 to K_M6 each complete and show their value (R36, R37, R38), with the
row's `k` (R64) and its field left-aligned in 6 bits (R65; R39, decision D1 of the spec, assumption 8). Which units a row is
shown to is the model's choice (assumption 5). -/
def Obligations.MagnitudeRowsShowTheirValues : Prop :=
  ∀ (s : State) (sign : Bool),
    RowShowsItsValue s (.kP6 sign) sign 6 0 0 ∧
    RowShowsItsValue s (.kP5 sign) sign 5 0 0 ∧
    (∀ f, RowShowsItsValue s (.kP4 sign f) sign 4 1 f.toNat) ∧
    (∀ f, RowShowsItsValue s (.kP3 sign f) sign 3 2 f.toNat) ∧
    (∀ f, RowShowsItsValue s (.kP2 sign f) sign 2 3 f.toNat) ∧
    (∀ f, RowShowsItsValue s (.kP1 sign f) sign 1 4 f.toNat) ∧
    (∀ f, RowShowsItsValue s (.kP0 sign f) sign 0 5 f.toNat) ∧
    (∀ f, RowShowsItsValue s (.kM1 sign f) sign (-1) 5 f.toNat) ∧
    (∀ f, RowShowsItsValue s (.kM2 sign f) sign (-2) 4 f.toNat) ∧
    (∀ f, RowShowsItsValue s (.kM3 sign f) sign (-3) 3 f.toNat) ∧
    (∀ f, RowShowsItsValue s (.kM4 sign f) sign (-4) 2 f.toNat) ∧
    (∀ f, RowShowsItsValue s (.kM5 sign f) sign (-5) 1 f.toNat) ∧
    RowShowsItsValue s (.kM6 sign) sign (-6) 0 0

/-- The rows of the two reserved bytes and K_M7 complete: ZERO shows +0.0 and UNPACK's (0, −7, 0, 0) (R86, R68), NAR a NaN
and (0, 0, 0, 0) (R87, R61), K_M7 the tuple (0, −7, 0, 0) at UNPACK alone (R36, R68). Which units a row is shown to is the
model's choice (assumption 5). -/
def Obligations.ReservedByteRowsComplete : Prop :=
  ∀ s : State,
    exec .zero s = .next { s with
      unpack := { byte := 0x00#8, fields := { sign := false, k := BitVec.ofInt 4 (-7), exponent := 0#1, fraction := 0#6 } }
      decoder := { pIn := 0x00#8, fOut := 0x00000000#32 } } ∧
    (∃ f : Binary32, isNaN f = true ∧ exec .nar s = .next { s with
      unpack := { byte := 0x80#8, fields := { sign := false, k := 0#4, exponent := 0#1, fraction := 0#6 } }
      decoder := { pIn := 0x80#8, fOut := f } }) ∧
    exec .kM7 s = .next { s with
      unpack := { byte := 0x00#8, fields := { sign := false, k := BitVec.ofInt 4 (-7), exponent := 0#1, fraction := 0#6 } } }

/-- The BINARY32 rows complete: F32_INF and F32_NAN show `0x80` (R71, R72), F32_ZERO and F32_SUBNORMAL `0x00` (R73, R83),
F32_NORMAL the byte of PACK(s, E − 127, 0, M[22:17]) (R78, R80). That a row is shown to posit8_encoder is the model's choice
(assumption 5). With no premise that the term is well-formed, the statement also says what the model answers for the terms
that no word decodes to, F32_NAN and F32_SUBNORMAL with a zero significand and F32_NORMAL with exponent 0 or 255 (assumption
11); for these it is no claim about the hardware. -/
def Obligations.FloatClassRowsComplete : Prop :=
  ∀ (s : State) (sign : Bool) (e : BitVec 8) (m : BitVec 23),
    exec (.f32Inf sign) s = .next { s with encoder := { fIn := floatWord sign 0xFF#8 0#23, pOut := 0x80#8 } } ∧
    exec (.f32Nan sign m) s = .next { s with encoder := { fIn := floatWord sign 0xFF#8 m, pOut := 0x80#8 } } ∧
    exec (.f32Zero sign) s = .next { s with encoder := { fIn := floatWord sign 0x00#8 0#23, pOut := 0x00#8 } } ∧
    exec (.f32Subnormal sign m) s = .next { s with encoder := { fIn := floatWord sign 0x00#8 m, pOut := 0x00#8 } } ∧
    ∃ p : PositByte,
      exec (.pack sign (BitVec.ofInt 9 ((e.toNat : Int) - 127)) 0#1 (m.extractLsb 22 17)) s = .next { s with pack :=
        { inputs := { sign, k := BitVec.ofInt 9 ((e.toNat : Int) - 127), exponent := 0#1, fraction := m.extractLsb 22 17 }
          byte := p } } ∧
      exec (.f32Normal sign e m) s = .next { s with encoder := { fIn := floatWord sign e m, pOut := p } }

/-- The rows of the table, each written from its own row, agree with the pseudocode of the operations that read them: a POSIT8
row does what UNPACK and TOFLOAT do on its byte (R36, R67, R92), K_M7 what UNPACK does on `0x00`, a BINARY32 row what
FROMFLOAT does on its pattern (R41, R80). That a POSIT8 row is shown to both UNPACK and posit8_decoder, K_M7 to UNPACK alone and a
BINARY32 row to posit8_encoder is the model's choice (assumption 5), and so are the words that carry the rows (assumption 4). -/
def Obligations.PatternRowsAgreeWithTheOperations : Prop :=
  ∀ (s : State) (i : Instr), WellFormed i →
    (∀ b, encode i = .posit b → ∃ t u, exec (.unpack b) s = .next t ∧ exec (.toFloat b) t = .next u ∧ exec i s = .next u) ∧
    (∀ m, encode i = .magnitude m → ∃ t, exec (.unpack (m.setWidth 8)) s = .next t ∧ exec i s = .next t) ∧
    (∀ x, encode i = .binary32 x → ∃ t, exec (.fromFloat x) s = .next t ∧ exec i s = .next t)
end

