-- ==== Sys2Proof/Laws/Fields.lean ====
section
/-! SUPPORT. Small lemmas about the bit fields of bytes and floats. -/

namespace Sys2Proof

/-- `(256 − b) mod 256` is bit vector negation. -/
theorem neg8_eq_neg (b : BitVec 8) : neg8 b = -b := by
  apply BitVec.eq_of_toNat_eq
  simp [neg8, BitVec.toNat_neg]

@[simp] theorem rawByte_false (m : BitVec 8) : rawByte false m = m := rfl

theorem rawByte_true (m : BitVec 8) : rawByte true m = neg8 m := rfl

/-- Every bit of a float word is a bit of one of its three fields (R40). -/
theorem getLsbD_floatWord (sign : Bool) (e : BitVec 8) (m : BitVec 23) (i : Nat) :
    (floatWord sign e m).getLsbD i =
      if i < 23 then m.getLsbD i else if i < 31 then e.getLsbD (i - 23) else decide (i = 31) && sign := by
  change (BitVec.ofBool sign ++ e ++ m : BitVec (1 + 8 + 23)).getLsbD i = _
  rw [BitVec.getLsbD_append, BitVec.getLsbD_append, BitVec.getLsbD_ofBool]
  by_cases h1 : i < 23
  · simp [h1]
  · by_cases h2 : i < 31
    · have : i - 23 < 8 := by omega
      simp [h1, h2, this]
    · have h3 : ¬ i - 23 < 8 := by omega
      have h4 : (i - 23 - 8 = 0) ↔ i = 31 := by omega
      simp [h1, h2, h3, h4]

theorem getLsbD_floatSignificand (x : Binary32) (i : Nat) :
    (floatSignificand x).getLsbD i = (decide (i < 23) && x.getLsbD i) := by
  simp [floatSignificand]

theorem getLsbD_floatExponent (x : Binary32) (i : Nat) :
    (floatExponent x).getLsbD i = (decide (i < 8) && x.getLsbD (23 + i)) := by
  simp [floatExponent]

@[simp] theorem floatSign_floatWord (sign : Bool) (e : BitVec 8) (m : BitVec 23) :
    floatSign (floatWord sign e m) = sign := by
  rw [floatSign, getLsbD_floatWord]
  simp

@[simp] theorem floatExponent_floatWord (sign : Bool) (e : BitVec 8) (m : BitVec 23) :
    floatExponent (floatWord sign e m) = e := by
  apply BitVec.eq_of_getLsbD_eq
  intro i h
  have h1 : 23 + i < 31 := by omega
  rw [getLsbD_floatExponent, getLsbD_floatWord]
  simp [h, h1]

@[simp] theorem floatSignificand_floatWord (sign : Bool) (e : BitVec 8) (m : BitVec 23) :
    floatSignificand (floatWord sign e m) = m := by
  apply BitVec.eq_of_getLsbD_eq
  intro i h
  rw [getLsbD_floatSignificand, getLsbD_floatWord]
  simp [h]

/-- A binary32 word is its three fields put together (R40). -/
theorem floatWord_of_fields (x : Binary32) :
    floatWord (floatSign x) (floatExponent x) (floatSignificand x) = x := by
  apply BitVec.eq_of_getLsbD_eq
  intro i h
  rw [getLsbD_floatWord, getLsbD_floatExponent, getLsbD_floatSignificand, floatSign]
  by_cases h1 : i < 23
  · simp [h1]
  · by_cases h2 : i < 31
    · have h3 : i - 23 < 8 := by omega
      have h4 : 23 + (i - 23) = i := by omega
      simp [h1, h2, h3, h4]
    · have h3 : i = 31 := by omega
      simp [h3]

/-- Whatever the two free values of Config are, NAN_OUT is a NaN (D3). -/
theorem Machine.isNaN_nanOut : Machine.isNaN Machine.nanOut = true := by
  unfold Machine.isNaN Machine.nanOut
  rw [floatExponent_floatWord, floatSignificand_floatWord]
  split
  · rfl
  · simpa using ‹¬ Config.nanPayload = 0#23›

end Sys2Proof
end

