-- ==== Sys2Proof/Laws/State.lean ====
section
/-! SUPPORT. What each update of the state leaves in each field: one lemma per field per update, so that no proof unfolds a
record update. -/

namespace Sys2Proof.Machine

open Sys2Proof

variable (s : State)

section showPack
variable (p : PackPorts)
@[simp] theorem showPack_pack : (s.showPack p).pack = p := rfl
@[simp] theorem showPack_unpack : (s.showPack p).unpack = s.unpack := rfl
@[simp] theorem showPack_encoder : (s.showPack p).encoder = s.encoder := rfl
@[simp] theorem showPack_decoder : (s.showPack p).decoder = s.decoder := rfl
@[simp] theorem showPack_pending : (s.showPack p).pending = s.pending := rfl
end showPack

section showUnpack
variable (p : UnpackPorts)
@[simp] theorem showUnpack_pack : (s.showUnpack p).pack = s.pack := rfl
@[simp] theorem showUnpack_unpack : (s.showUnpack p).unpack = p := rfl
@[simp] theorem showUnpack_encoder : (s.showUnpack p).encoder = s.encoder := rfl
@[simp] theorem showUnpack_decoder : (s.showUnpack p).decoder = s.decoder := rfl
@[simp] theorem showUnpack_pending : (s.showUnpack p).pending = s.pending := rfl
end showUnpack

section showEncoder
variable (p : EncoderPorts)
@[simp] theorem showEncoder_pack : (s.showEncoder p).pack = s.pack := rfl
@[simp] theorem showEncoder_unpack : (s.showEncoder p).unpack = s.unpack := rfl
@[simp] theorem showEncoder_encoder : (s.showEncoder p).encoder = p := rfl
@[simp] theorem showEncoder_decoder : (s.showEncoder p).decoder = s.decoder := rfl
@[simp] theorem showEncoder_pending : (s.showEncoder p).pending = s.pending := rfl
end showEncoder

section showDecoder
variable (p : DecoderPorts)
@[simp] theorem showDecoder_pack : (s.showDecoder p).pack = s.pack := rfl
@[simp] theorem showDecoder_unpack : (s.showDecoder p).unpack = s.unpack := rfl
@[simp] theorem showDecoder_encoder : (s.showDecoder p).encoder = s.encoder := rfl
@[simp] theorem showDecoder_decoder : (s.showDecoder p).decoder = p := rfl
@[simp] theorem showDecoder_pending : (s.showDecoder p).pending = s.pending := rfl
end showDecoder

section setPending
variable (l : List Stimulus)
@[simp] theorem setPending_pack : (s.setPending l).pack = s.pack := rfl
@[simp] theorem setPending_unpack : (s.setPending l).unpack = s.unpack := rfl
@[simp] theorem setPending_encoder : (s.setPending l).encoder = s.encoder := rfl
@[simp] theorem setPending_decoder : (s.setPending l).decoder = s.decoder := rfl
@[simp] theorem setPending_pending : (s.setPending l).pending = l := rfl
end setPending

section showByte
variable (b : PositByte) (d : DecodedFields) (f : Binary32)
@[simp] theorem showByte_pack : (s.showByte b d f).pack = s.pack := rfl
@[simp] theorem showByte_unpack : (s.showByte b d f).unpack = { byte := b, fields := d } := rfl
@[simp] theorem showByte_encoder : (s.showByte b d f).encoder = s.encoder := rfl
@[simp] theorem showByte_decoder : (s.showByte b d f).decoder = { pIn := b, fOut := f } := rfl
@[simp] theorem showByte_pending : (s.showByte b d f).pending = s.pending := rfl
end showByte

end Sys2Proof.Machine
end

