-- ==== Sys2Proof/Laws/Ops.lean ====
section
/-! SUPPORT. What the shared operations can do, said once. -/

namespace Sys2Proof.Machine

open Sys2Proof

/-- Everything an instruction can do: from any state it answers a next state in which the units it drives hold ports that
the instruction alone determines, and everything else is as it was. Proofs about all instructions cite this and do not
unfold the arms. -/
theorem exec_shows (i : Instr) :
    ∃ (p : Option PackPorts) (u : Option UnpackPorts) (e : Option EncoderPorts) (d : Option DecoderPorts),
      (∀ s, exec i s = .next
        { pack := p.getD s.pack, unpack := u.getD s.unpack, encoder := e.getD s.encoder
          decoder := d.getD s.decoder, pending := s.pending }) ∧
      (p.isSome ↔ CodecUnit.pack ∈ drives i) ∧ (u.isSome ↔ CodecUnit.unpack ∈ drives i) ∧
      (e.isSome ↔ CodecUnit.encoder ∈ drives i) ∧ (d.isSome ↔ CodecUnit.decoder ∈ drives i) := by
  cases i with
  | pack => exact ⟨some _, none, none, none, fun _ => rfl, by simp [drives], by simp [drives], by simp [drives], by simp [drives]⟩
  | unpack | kM7 =>
    exact ⟨none, some _, none, none, fun _ => rfl, by simp [drives], by simp [drives], by simp [drives], by simp [drives]⟩
  | fromFloat | f32Inf | f32Nan | f32Zero | f32Subnormal | f32Normal =>
    exact ⟨none, none, some _, none, fun _ => rfl, by simp [drives], by simp [drives], by simp [drives], by simp [drives]⟩
  | toFloat =>
    exact ⟨none, none, none, some _, fun _ => rfl, by simp [drives], by simp [drives], by simp [drives], by simp [drives]⟩
  | zero | nar | kP6 | kP5 | kP4 | kP3 | kP2 | kP1 | kP0 | kM1 | kM2 | kM3 | kM4 | kM5 | kM6 =>
    exact ⟨none, some _, none, some _, fun _ => rfl, by simp [drives], by simp [drives], by simp [drives], by simp [drives]⟩

@[simp] theorem word_drive (s : State) (w : PortWord) : Stimulus.word s (.drive w) = w := rfl

@[simp] theorem word_unpackToPack (s : State) :
    Stimulus.word s (.wired .unpackToPack) = .pack (packInputsOf s.unpack.fields) := rfl

@[simp] theorem word_packToUnpack (s : State) : Stimulus.word s (.wired .packToUnpack) = .unpack s.pack.byte := rfl

@[simp] theorem word_encoderToDecoder (s : State) :
    Stimulus.word s (.wired .encoderToDecoder) = .toFloat s.encoder.pOut := rfl

@[simp] theorem word_decoderToEncoder (s : State) :
    Stimulus.word s (.wired .decoderToEncoder) = .fromFloat s.decoder.fOut := rfl

theorem step_nil {s : State} (h : s.pending = []) : step s = .next s := by
  simp [step, h]

theorem step_cons {s : State} {st : Stimulus} {rest : List Stimulus} (h : s.pending = st :: rest) :
    step s = exec (decode (Stimulus.word s st)) (s.setPending rest) := by
  simp [step, h]

end Sys2Proof.Machine
end

