-- ==== Sys2Proof/Laws/PerInstr.lean ====
section
/-! SUPPORT. Statements about every instruction as an encoding, one lemma per constructor. Family `TableRow`: what the encoder
presents has the width, and matches the mask and pattern, that the instruction's row of spec/opcode_table.json gives. -/

namespace Sys2Proof.Laws.TableRow

open Sys2Proof

/-- Width, mask and match of a row of spec/opcode_table.json; a BLOCK row has no bits (mask and match 0). -/
structure RowBits where
  width   : Nat
  mask    : BitVec 32
  pattern : BitVec 32
  deriving DecidableEq, Repr

/-- The rows of spec/opcode_table.json, transcribed. -/
def rowBits : Instr → RowBits
  | .pack _ _ _ _ => { width := 0, mask := 0x00#32, pattern := 0x00#32 }
  | .unpack _ => { width := 0, mask := 0x00#32, pattern := 0x00#32 }
  | .fromFloat _ => { width := 0, mask := 0x00#32, pattern := 0x00#32 }
  | .toFloat _ => { width := 0, mask := 0x00#32, pattern := 0x00#32 }
  | .zero => { width := 8, mask := 0xFF#32, pattern := 0x00#32 }
  | .nar => { width := 8, mask := 0xFF#32, pattern := 0x80#32 }
  | .kP6 _ => { width := 8, mask := 0xFF#32, pattern := 0x7F#32 }
  | .kP5 _ => { width := 8, mask := 0xFF#32, pattern := 0x7E#32 }
  | .kP4 _ _ => { width := 8, mask := 0xFE#32, pattern := 0x7C#32 }
  | .kP3 _ _ => { width := 8, mask := 0xFC#32, pattern := 0x78#32 }
  | .kP2 _ _ => { width := 8, mask := 0xF8#32, pattern := 0x70#32 }
  | .kP1 _ _ => { width := 8, mask := 0xF0#32, pattern := 0x60#32 }
  | .kP0 _ _ => { width := 8, mask := 0xE0#32, pattern := 0x40#32 }
  | .kM1 _ _ => { width := 8, mask := 0xE0#32, pattern := 0x20#32 }
  | .kM2 _ _ => { width := 8, mask := 0xF0#32, pattern := 0x10#32 }
  | .kM3 _ _ => { width := 8, mask := 0xF8#32, pattern := 0x08#32 }
  | .kM4 _ _ => { width := 8, mask := 0xFC#32, pattern := 0x04#32 }
  | .kM5 _ _ => { width := 8, mask := 0xFE#32, pattern := 0x02#32 }
  | .kM6 _ => { width := 8, mask := 0xFF#32, pattern := 0x01#32 }
  | .kM7 => { width := 8, mask := 0xFF#32, pattern := 0x00#32 }
  | .f32Inf _ => { width := 32, mask := 0x7FFFFFFF#32, pattern := 0x7F800000#32 }
  | .f32Nan _ _ => { width := 32, mask := 0x7F800000#32, pattern := 0x7F800000#32 }
  | .f32Zero _ => { width := 32, mask := 0x7FFFFFFF#32, pattern := 0x00000000#32 }
  | .f32Subnormal _ _ => { width := 32, mask := 0x7F800000#32, pattern := 0x00000000#32 }
  | .f32Normal _ _ _ => { width := 32, mask := 0x00000000#32, pattern := 0x00000000#32 }

/-- The bits of a presented word that the table's patterns are compared with: the raw byte for the POSIT8_RAW rows and its
magnitude byte for the POSIT8_MAG rows, which is the raw byte itself for `0x00` and `0x80`; the whole word of a float. -/
def tableBits : PortWord → BitVec 32
  | .pack _ => 0#32
  | .unpack _ => 0#32
  | .fromFloat _ => 0#32
  | .toFloat _ => 0#32
  | .posit b => (magnitudeOf b).setWidth 32
  | .magnitude m => m.setWidth 32
  | .binary32 x => x

/-- How many bits the table gives a presented word. -/
def tableWidth : PortWord → Nat
  | .pack _ => 0
  | .unpack _ => 0
  | .fromFloat _ => 0
  | .toFloat _ => 0
  | .posit _ => 8
  | .magnitude _ => 8
  | .binary32 _ => 32

/-- The encoding of `i` has the width of its row and matches the row's mask and pattern. -/
def Statement (i : Instr) : Prop :=
  tableWidth (encode i) = (rowBits i).width ∧ tableBits (encode i) &&& (rowBits i).mask = (rowBits i).pattern

/-- A float word under the mask of its exponent field. -/
theorem floatWord_and_exponentMask (sign : Bool) (e : BitVec 8) (m : BitVec 23) :
    floatWord sign e m &&& 0x7F800000#32 = floatWord false e 0#23 := by
  have h : (0x7F800000#32 : BitVec 32) = floatWord false 0xFF#8 0#23 := by decide
  rw [h]
  apply BitVec.eq_of_getLsbD_eq
  intro i hi
  rw [BitVec.getLsbD_and, getLsbD_floatWord, getLsbD_floatWord, getLsbD_floatWord]
  by_cases h1 : i < 23
  · simp [h1]
  · by_cases h2 : i < 31
    · have h3 : (0xFF#8 : BitVec 8).getLsbD (i - 23) = true := by
        have h4 : i - 23 < 8 := by omega
        generalize i - 23 = j at h4
        revert j
        decide
      simp [h1, h2, h3]
    · simp [h1, h2]

/-- Evaluating the statement of a row whose operands are few enough to list. -/
abbrev Holds (i : Instr) : Bool :=
  tableWidth (encode i) == (rowBits i).width && tableBits (encode i) &&& (rowBits i).mask == (rowBits i).pattern

theorem statement_of_holds {i : Instr} (h : Holds i = true) : Statement i := by
  simpa [Holds, Statement] using h

theorem pack (sign : Bool) (k : BitVec 9) (exponent : BitVec 1) (fraction : BitVec 6) : Statement (.pack sign k exponent fraction) := ⟨rfl, BitVec.and_zero⟩

theorem unpack (b : PositByte) : Statement (.unpack b) := ⟨rfl, BitVec.and_zero⟩

theorem fromFloat (x : Binary32) : Statement (.fromFloat x) := ⟨rfl, BitVec.and_zero⟩

theorem toFloat (b : PositByte) : Statement (.toFloat b) := ⟨rfl, BitVec.and_zero⟩

theorem zero : Statement .zero := ⟨rfl, by decide⟩

theorem nar : Statement .nar := ⟨rfl, by decide⟩

theorem kP6 (sign : Bool) : Statement (.kP6 sign) := by
  cases sign <;> exact ⟨rfl, by decide⟩

theorem kP5 (sign : Bool) : Statement (.kP5 sign) := by
  cases sign <;> exact ⟨rfl, by decide⟩

theorem kP4 (sign : Bool) (f : BitVec 1) : Statement (.kP4 sign f) :=
  statement_of_holds (by revert sign f; decide)

theorem kP3 (sign : Bool) (f : BitVec 2) : Statement (.kP3 sign f) :=
  statement_of_holds (by revert sign f; decide)

theorem kP2 (sign : Bool) (f : BitVec 3) : Statement (.kP2 sign f) :=
  statement_of_holds (by revert sign f; decide)

theorem kP1 (sign : Bool) (f : BitVec 4) : Statement (.kP1 sign f) :=
  statement_of_holds (by revert sign f; decide)

theorem kP0 (sign : Bool) (f : BitVec 5) : Statement (.kP0 sign f) :=
  statement_of_holds (by revert sign f; decide)

theorem kM1 (sign : Bool) (f : BitVec 5) : Statement (.kM1 sign f) :=
  statement_of_holds (by revert sign f; decide)

theorem kM2 (sign : Bool) (f : BitVec 4) : Statement (.kM2 sign f) :=
  statement_of_holds (by revert sign f; decide)

theorem kM3 (sign : Bool) (f : BitVec 3) : Statement (.kM3 sign f) :=
  statement_of_holds (by revert sign f; decide)

theorem kM4 (sign : Bool) (f : BitVec 2) : Statement (.kM4 sign f) :=
  statement_of_holds (by revert sign f; decide)

theorem kM5 (sign : Bool) (f : BitVec 1) : Statement (.kM5 sign f) :=
  statement_of_holds (by revert sign f; decide)

theorem kM6 (sign : Bool) : Statement (.kM6 sign) := by
  cases sign <;> exact ⟨rfl, by decide⟩

theorem kM7 : Statement .kM7 := ⟨rfl, by decide⟩

theorem f32Inf (sign : Bool) : Statement (.f32Inf sign) := by
  cases sign <;> exact ⟨rfl, by decide⟩

theorem f32Nan (sign : Bool) (m : BitVec 23) : Statement (.f32Nan sign m) :=
  ⟨rfl, (floatWord_and_exponentMask sign _ m).trans rfl⟩

theorem f32Zero (sign : Bool) : Statement (.f32Zero sign) := by
  cases sign <;> exact ⟨rfl, by decide⟩

theorem f32Subnormal (sign : Bool) (m : BitVec 23) : Statement (.f32Subnormal sign m) :=
  ⟨rfl, (floatWord_and_exponentMask sign _ m).trans rfl⟩

theorem f32Normal (sign : Bool) (e : BitVec 8) (m : BitVec 23) : Statement (.f32Normal sign e m) := ⟨rfl, BitVec.and_zero⟩

end Sys2Proof.Laws.TableRow
end

