-- ==== Sys2Proof/Tests/Slice0.lean ====
section
/-! SUPPORT. Tests of single evaluations, decode tests on words written out from the table, the smoke test of WellFormed, and
one witness per statement with hypotheses. Expected values are the spec's: tables 2.1 to 2.4 and 3 of
spec/95_test_vectors.md, worked examples of rules R59, R69, R82 and R94. -/

namespace Sys2Proof.Tests

open Sys2Proof Sys2Proof.Machine

/-! ### WellFormed: one ill-formed term for each check -/

theorem test_nan_with_zero_significand_is_ill_formed : ¬ WellFormed (.f32Nan true 0#23) := by decide
theorem test_subnormal_with_zero_significand_is_ill_formed : ¬ WellFormed (.f32Subnormal false 0#23) := by decide
theorem test_normal_with_exponent_0_is_ill_formed : ¬ WellFormed (.f32Normal false 0x00#8 1#23) := by decide
theorem test_normal_with_exponent_255_is_ill_formed : ¬ WellFormed (.f32Normal true 0xFF#8 0#23) := by decide

/-! ### Decode: words written out bit by bit from the encodings of spec/opcode_table.json -/

theorem test_decode_block :
    decode (.pack { sign := true, k := -3#9, exponent := 1#1, fraction := 0b101111#6 }) =
      .pack true (-3#9) 1#1 0b101111#6 ∧
    decode (.unpack 0x80#8) = .unpack 0x80#8 ∧ decode (.fromFloat 0#32) = .fromFloat 0#32 ∧
    decode (.toFloat 0x80#8) = .toFloat 0x80#8 := by decide

theorem test_decode_raw :
    decodeTableWord 8 0b00000000 = some .zero ∧ decodeTableWord 8 0b10000000 = some .nar := by decide

theorem test_decode_positive_rows :
    decodeTableWord 8 0b01111111 = some (.kP6 false) ∧ decodeTableWord 8 0b01111110 = some (.kP5 false) ∧
    decodeTableWord 8 0b01111101 = some (.kP4 false 0b1#1) ∧ decodeTableWord 8 0b01111010 = some (.kP3 false 0b10#2) ∧
    decodeTableWord 8 0b01110011 = some (.kP2 false 0b011#3) ∧ decodeTableWord 8 0b01101001 = some (.kP1 false 0b1001#4) ∧
    decodeTableWord 8 0b01010001 = some (.kP0 false 0b10001#5) := by decide

theorem test_decode_negative_regime_rows :
    decodeTableWord 8 0b00110001 = some (.kM1 false 0b10001#5) ∧ decodeTableWord 8 0b00011001 = some (.kM2 false 0b1001#4) ∧
    decodeTableWord 8 0b00001101 = some (.kM3 false 0b101#3) ∧ decodeTableWord 8 0b00000110 = some (.kM4 false 0b10#2) ∧
    decodeTableWord 8 0b00000011 = some (.kM5 false 0b1#1) ∧ decodeTableWord 8 0b00000001 = some (.kM6 false) := by decide

/-- Raw bytes with bit 7 set: `0x81`, `0xB0`, `0xF3` and `0xFF` have the magnitudes `0x7F`, `0x50`, `0x0D` and `0x01`. -/
theorem test_decode_negative_bytes :
    decodeTableWord 8 0x81 = some (.kP6 true) ∧ decodeTableWord 8 0xB0 = some (.kP0 true 0b10000#5) ∧
    decodeTableWord 8 0xF3 = some (.kM3 true 0b101#3) ∧ decodeTableWord 8 0xFF = some (.kM6 true) := by decide

theorem test_decode_magnitude_zero : decode (.magnitude 0b0000000#7) = .kM7 := by decide

theorem test_decode_binary32 :
    decodeTableWord 32 0b11111111100000000000000000000000 = some (.f32Inf true) ∧
    decodeTableWord 32 0b01111111100000000000000000000001 = some (.f32Nan false 1#23) ∧
    decodeTableWord 32 0b10000000000000000000000000000000 = some (.f32Zero true) ∧
    decodeTableWord 32 0b00000000010000000000000000000001 = some (.f32Subnormal false 0x400001#23) ∧
    decodeTableWord 32 0b01000000010010010000111111010000 = some (.f32Normal false 128#8 0x490FD0#23) := by decide

theorem test_decode_other_widths_are_refused_by_name :
    tableWord 16 0x4040 = .error (.noPatternOfWidth 16) ∧ decodeTableWord 16 0x4040 = none ∧ decodeTableWord 0 0 = none := by
  exact ⟨rfl, by decide, by decide⟩

/-! ### Single evaluations -/

/-- The state an evaluation answers, if it answers one. -/
def shown : Host.Outcome State Fault Refusal → Option State
  | .next s => some s
  | .fault _ => none
  | .refused _ => none

def packShows (i : Instr) : Option PositByte := (shown (exec i State.reset)).map (·.pack.byte)
def unpackShows (i : Instr) : Option DecodedFields := (shown (exec i State.reset)).map (·.unpack.fields)
def encoderShows (i : Instr) : Option EncoderPorts := (shown (exec i State.reset)).map (·.encoder)
def decoderShows (i : Instr) : Option DecoderPorts := (shown (exec i State.reset)).map (·.decoder)

/-- R59. -/
theorem test_pack_negative_regime : packShows (.pack false (-3#9) 0#1 0b101111#6) = some 0x0D#8 := by decide
/-- Table 2.1: the terminator falls off the byte, and the sign with it. -/
theorem test_pack_underflow_loses_sign : packShows (.pack true (-7#9) 0#1 0#6) = some 0x00#8 := by decide

/-- R69. -/
theorem test_unpack_negative_regime :
    unpackShows (.unpack 0x0D#8) = some { sign := false, k := -3#4, exponent := 0#1, fraction := 0b101000#6 } := by decide
/-- R69: `0x81`, a run of seven ones with no terminator. -/
theorem test_unpack_without_terminator :
    unpackShows (.unpack 0x81#8) = some { sign := true, k := 6#4, exponent := 0#1, fraction := 0#6 } := by decide

/-- Table 2.3: the largest float below 2.0 does not round up. -/
theorem test_fromFloat_truncates :
    encoderShows (.fromFloat 0x3FFFFFFF#32) = some { fIn := 0x3FFFFFFF#32, pOut := 0x5F#8 } := by decide
/-- R72 and decision D2. -/
theorem test_fromFloat_minus_infinity :
    encoderShows (.fromFloat 0xFF800000#32) = some { fIn := 0xFF800000#32, pOut := 0x80#8 } := by decide

/-- R94. -/
theorem test_toFloat_fraction :
    decoderShows (.toFloat 0x69#8) = some { pIn := 0x69#8, fOut := 0x40480000#32 } := by decide
/-- R94: `0xFF`, −1/64. -/
theorem test_toFloat_minpos_negative :
    decoderShows (.toFloat 0xFF#8) = some { pIn := 0xFF#8, fOut := 0xBC800000#32 } := by decide

theorem test_zero :
    decoderShows .zero = some { pIn := 0x00#8, fOut := 0x00000000#32 } ∧
    unpackShows .zero = some { sign := false, k := -7#4, exponent := 0#1, fraction := 0#6 } := by decide

theorem test_nar :
    unpackShows .nar = some { sign := false, k := 0#4, exponent := 0#1, fraction := 0#6 } ∧
    (decoderShows .nar).map (fun d => isNaN d.fOut) = some true :=
  ⟨by decide, congrArg some isNaN_nanOut⟩

/-- Table 3: `0x81`, `0x82`, `0x7D`, `0x7B`, `0x8D`, `0x91` and `0x50`. -/
theorem test_positive_rows :
    decoderShows (.kP6 true) = some { pIn := 0x81#8, fOut := 0xC2800000#32 } ∧
    decoderShows (.kP5 true) = some { pIn := 0x82#8, fOut := 0xC2000000#32 } ∧
    decoderShows (.kP4 false 1#1) = some { pIn := 0x7D#8, fOut := 0x41C00000#32 } ∧
    decoderShows (.kP3 false 3#2) = some { pIn := 0x7B#8, fOut := 0x41600000#32 } ∧
    decoderShows (.kP2 true 3#3) = some { pIn := 0x8D#8, fOut := 0xC0B00000#32 } ∧
    decoderShows (.kP1 true 15#4) = some { pIn := 0x91#8, fOut := 0xC0780000#32 } ∧
    decoderShows (.kP0 false 16#5) = some { pIn := 0x50#8, fOut := 0x3FC00000#32 } := by decide

/-- Table 3: `0x3F`, `0xED`, `0x0D`, `0xFA`, `0x03` and `0x01`. -/
theorem test_negative_regime_rows :
    decoderShows (.kM1 false 31#5) = some { pIn := 0x3F#8, fOut := 0x3F7C0000#32 } ∧
    decoderShows (.kM2 true 3#4) = some { pIn := 0xED#8, fOut := 0xBE980000#32 } ∧
    decoderShows (.kM3 false 5#3) = some { pIn := 0x0D#8, fOut := 0x3E500000#32 } ∧
    decoderShows (.kM4 true 2#2) = some { pIn := 0xFA#8, fOut := 0xBDC00000#32 } ∧
    decoderShows (.kM5 false 1#1) = some { pIn := 0x03#8, fOut := 0x3D400000#32 } ∧
    decoderShows (.kM6 false) = some { pIn := 0x01#8, fOut := 0x3C800000#32 } := by decide

/-- Table 3: UNPACK of `0x8D` and of `0x00`; K_M7 shows nothing at posit8_decoder. -/
theorem test_row_fields :
    unpackShows (.kP2 true 3#3) = some { sign := true, k := 2#4, exponent := 0#1, fraction := 0b011000#6 } ∧
    unpackShows .kM7 = some { sign := false, k := -7#4, exponent := 0#1, fraction := 0#6 } ∧
    decoderShows .kM7 = some State.reset.decoder := by decide

/-- Table 2.3: ±∞, a signalling NaN, −0.0, a subnormal, 3.14159 and −5.75. -/
theorem test_binary32_rows :
    encoderShows (.f32Inf true) = some { fIn := 0xFF800000#32, pOut := 0x80#8 } ∧
    encoderShows (.f32Nan false 1#23) = some { fIn := 0x7F800001#32, pOut := 0x80#8 } ∧
    encoderShows (.f32Zero true) = some { fIn := 0x80000000#32, pOut := 0x00#8 } ∧
    encoderShows (.f32Subnormal true 1#23) = some { fIn := 0x80000001#32, pOut := 0x00#8 } ∧
    encoderShows (.f32Normal false 128#8 0x490FD0#23) = some { fIn := 0x40490FD0#32, pOut := 0x69#8 } ∧
    encoderShows (.f32Normal true 129#8 0x380000#23) = some { fIn := 0xC0B80000#32, pOut := 0x8D#8 } := by decide

/-- Program P1, step 7: 3.14159 into posit8_encoder, here the step on its table word. -/
theorem test_step_runs_the_fetch_word :
    (shown (step (State.reset.withFetchWord 32 0x40490FD0))).map (fun s => (s.encoder.pOut, s.pending)) =
      some (0x69#8, []) := by decide

/-- Program P1: p_out drives p_in. -/
theorem test_step_wires_the_encoder_to_the_decoder :
    (shown (step { State.reset with
      encoder := { fIn := 0x40490FD0#32, pOut := 0x69#8 }, pending := [.wired .encoderToDecoder] })).map (·.decoder) =
      some { pIn := 0x69#8, fOut := 0x40480000#32 } := by decide

/-! ### Witnesses: concrete values that meet the hypotheses of each statement that has some -/

/-- StepRunsTheDecodedStimulus, both clauses; StepRunsTheEncodedInstruction; FetchWordIsTheNextEvaluation has none. -/
theorem witness_pending :
    (State.reset.setPending [.drive (encode (.kP4 true 1#1))]).pending = .drive (encode (.kP4 true 1#1)) :: [] ∧
    WellFormed (.kP4 true 1#1) ∧ State.reset.pending = [] := by decide

/-- WiredUnitsTakeTheOtherUnitsOutputs, each clause. -/
theorem witness_wired :
    ∀ l ∈ [Link.unpackToPack, .packToUnpack, .encoderToDecoder, .decoderToEncoder],
      (State.reset.setPending [.wired l]).pending = .wired l :: [] := by decide

/-- EvaluationsOnDifferentUnitsCommute. -/
theorem witness_different_units :
    ∀ u, u ∈ drives (.kP5 true) → u ∉ drives (.f32Normal false 127#8 0#23) := by
  intro u
  cases u <;> decide

/-- StepKeepsTheWiresSettled: a settled state with a step that changes it. -/
theorem witness_settled_step :
    Settled (State.reset.setPending [.drive (.toFloat 0x40#8)]) ∧
    ∃ t, step (State.reset.setPending [.drive (.toFloat 0x40#8)]) = .next t ∧ t.decoder.pIn ≠ State.reset.decoder.pIn :=
  ⟨⟨by decide, by decide, by decide, by decide⟩, _, rfl, by decide⟩

/-- DecodeInvertsEncode and PatternRowsAgreeWithTheOperations, each form of encoding. -/
theorem witness_well_formed :
    WellFormed (.kP4 true 1#1) ∧ encode (.kP4 true 1#1) = .posit 0x83#8 ∧
    WellFormed .kM7 ∧ encode .kM7 = .magnitude 0#7 ∧
    WellFormed (.f32Normal false 254#8 0#23) ∧ encode (.f32Normal false 254#8 0#23) = .binary32 0x7F000000#32 ∧
    WellFormed (.f32Normal false 1#8 0#23) ∧ WellFormed (.f32Nan true 1#23) ∧ WellFormed (.f32Subnormal true 1#23) := by
  decide

/-- EveryWordDecodesAndEncodesBack, each clause. -/
theorem witness_words :
    (∀ m, PortWord.posit 0x80#8 ≠ .magnitude m) ∧ (1#7 : BitVec 7) ≠ 0#7 ∧ (0x7F#7 : BitVec 7) ≠ 0#7 :=
  ⟨fun _ h => PortWord.noConfusion h, by decide, by decide⟩

/-- MagnitudeTableIsWhatUnpackReads: no row's range is empty or leaves the magnitude bytes, so each has its first and its last
byte as witnesses. -/
theorem witness_magnitude_ranges :
    ∀ r ∈ [(0x7F, 0x7F), (0x7E, 0x7E), (0x7C, 0x7D), (0x78, 0x7B), (0x70, 0x77), (0x60, 0x6F), (0x40, 0x5F), (0x20, 0x3F),
      (0x10, 0x1F), (0x08, 0x0F), (0x04, 0x07), (0x02, 0x03), (0x01, 0x01), (0x00, 0x00)],
      (r.1 : BitVec 8) ≤ r.2 ∧ r.2 ≤ (0x7F : BitVec 8) := by
  intro r hr
  fin_cases hr <;> decide

/-- PackPlacesRegimeFractionAndSign, PackClosedFormByRegime, PackSaturatesAndFlushes, PackNeverReturnsNaR and
UnpackOfPackCutsTheFraction: the values of `k` on both sides of each of their bounds, with `L` and `rem`. -/
theorem witness_regimes :
    (255#9).toInt = 255 ∧ (6#9).toInt = 6 ∧ (5#9).toInt = 5 ∧ (0#9).toInt = 0 ∧ (-1#9).toInt = -1 ∧ (-6#9).toInt = -6 ∧
    (-7#9).toInt = -7 ∧ (-256#9).toInt = -256 ∧
    (7 - ((5 : Int) + 2)).toNat = 0 ∧ (7 - ((0 : Int) + 2)).toNat = 5 ∧ (7 - (-(-1 : Int) + 1)).toNat = 5 ∧
    (7 - (-(-6 : Int) + 1)).toNat = 0 ∧ (5 - (0 : Int)).toNat = 5 ∧ (6 + (-6 : Int)).toNat = 0 := by decide

/-- UnpackReadsSignRunAndFraction and UnpackRegimeValueOfTheRun (both signs, both defining bits, with and without terminator), and the statements on
ordinary bytes: NegatingTheByteInvertsTheSign, DecoderOutputWord, DecoderGivesTheBytesValue, DecoderImage. -/
theorem witness_ordinary_bytes :
    ∀ p ∈ [(0x01#8, 0x01#8), (0x7F#8, 0x7F#8), (0x81#8, 0x7F#8), (0xFF#8, 0x01#8), (0x40#8, 0x40#8)],
      p.1 ≠ 0x80#8 ∧ p.1 ≠ 0x00#8 ∧ p.2 = if p.1.getLsbD 7 then neg8 p.1 else p.1 := by
  intro p hp
  fin_cases hp <;> decide

/-- NonFiniteInputsGiveNaR and ZerosAndSubnormalsGiveZero; NegatingTheFloatNegatesTheByte (a finite input whose byte is not
`0x00`, and one whose byte is); ZeroAndNaNRoundTrip. -/
theorem witness_float_classes :
    floatExponent 0x7F800000#32 = 0xFF#8 ∧ floatExponent 0xFFFFFFFF#32 = 0xFF#8 ∧ floatExponent 0x80000000#32 = 0x00#8 ∧
    floatExponent 0x007FFFFF#32 = 0x00#8 ∧ floatExponent 0x3F800000#32 ≠ 0xFF#8 ∧ floatExponent 0x3C7FFFFF#32 ≠ 0xFF#8 ∧
    ((0x7F800001#32).extractLsb 30 23).toNat = 255 ∧ ((0x7F800001#32).extractLsb 22 0).toNat ≠ 0 := by decide

/-- EncoderRangeTable: an input on each side of each bound of `E`. -/
theorem witness_exponents :
    ∀ E ∈ [1, 120, 121, 122, 123, 124, 125, 126, 127, 128, 129, 130, 131, 132, 133, 254],
      ((floatWord true (BitVec.ofNat 8 E) 0x7FFFFF#23).extractLsb 30 23).toNat = E ∧
      ((floatWord true (BitVec.ofNat 8 E) 0x7FFFFF#23).extractLsb 22 17).toNat = 63 := by decide

/-- The number a normal float word denotes, for the witnesses below. -/
theorem value_of_normal (sign : Bool) (e : BitVec 8) (m : BitVec 23) (h : e ≠ 0xFF#8) (h0 : e ≠ 0x00#8) :
    floatValue (floatWord sign e m) =
      some (signFactor sign * (1 + m.toNat / 2 ^ 23) * (2 : ℚ) ^ (e.toNat - 127 : ℤ)) := by
  simp [floatValue, h, h0]

/-- EncoderIsTheDocumentsArithmetic and EncoderTruncatesOnce, EncoderNeverGrowsTheMagnitude, ConversionErrorIsBounded:
−1.5, with `e = k = 0` and `F = 32`. -/
theorem witness_value_in_range :
    floatValue 0xBFC00000#32 = some (-3 / 2) ∧ (-3 / 2 : ℚ) ≠ 0 ∧ (2 : ℚ) ^ (0 : ℤ) ≤ |(-3 / 2 : ℚ)| ∧
    |(-3 / 2 : ℚ)| < (2 : ℚ) ^ ((0 : ℤ) + 1) ∧ (32 : ℤ) = ⌊(|(-3 / 2 : ℚ)| / (2 : ℚ) ^ (0 : ℤ) - 1) * 64⌋ ∧
    (5 : Nat) = (if 0 ≤ (0 : ℤ) then 5 - (0 : ℤ) else 6 + (0 : ℤ)).toNat := by
  have h : (0xBFC00000#32 : BitVec 32) = floatWord true 127#8 0x400000#23 := by decide
  refine ⟨?_, by norm_num, by norm_num, by norm_num, ?_, by decide⟩
  · rw [h, value_of_normal _ _ _ (by decide) (by decide)]
    norm_num [signFactor]
  · norm_num

/-- ConversionErrorIsBounded and EncoderTruncatesOnce at the ends of their ranges of `k`: 1/64 (k = −6), 32 (k = 5); and 64,
of the clause for `|v| ≥ 64`; 2^−7, of the clause for `|v| < 2^−6`. -/
theorem witness_values_at_bounds :
    floatValue 0x3C800000#32 = some ((2 : ℚ) ^ (-6 : ℤ)) ∧ floatValue 0x42000000#32 = some ((2 : ℚ) ^ (5 : ℤ)) ∧
    floatValue 0x42800000#32 = some 64 ∧ floatValue 0x3C000000#32 = some ((2 : ℚ) ^ (-7 : ℤ)) ∧
    |(2 : ℚ) ^ (-7 : ℤ)| < (2 : ℚ) ^ (-6 : ℤ) := by
  have h (e : BitVec 8) (h1 : e ≠ 0xFF#8) (h0 : e ≠ 0x00#8) :
      floatValue (floatWord false e 0#23) = some ((2 : ℚ) ^ (e.toNat - 127 : ℤ)) := by
    rw [value_of_normal _ _ _ h1 h0]
    simp [signFactor]
  have a := h 121#8 (by decide) (by decide)
  have b := h 132#8 (by decide) (by decide)
  have c := h 133#8 (by decide) (by decide)
  have d := h 120#8 (by decide) (by decide)
  rw [show floatWord false 121#8 0#23 = 0x3C800000#32 by decide] at a
  rw [show floatWord false 132#8 0#23 = 0x42000000#32 by decide] at b
  rw [show floatWord false 133#8 0#23 = 0x42800000#32 by decide] at c
  rw [show floatWord false 120#8 0#23 = 0x3C000000#32 by decide] at d
  refine ⟨a.trans (by norm_num), b.trans (by norm_num), c.trans (by norm_num), d.trans (by norm_num), by norm_num⟩

/-- ByteOrderIsValueOrder: two finite floats in order, 1/64 and 32, and two bytes with values. -/
theorem witness_ordered_values :
    ∃ v w : ℚ, floatValue 0x3C800000#32 = some v ∧ floatValue 0x42000000#32 = some w ∧ v ≤ w ∧
      byteValue 0x00#8 = some 0 ∧ (byteValue 0x7F#8).isSome := by
  obtain ⟨a, b, _⟩ := witness_values_at_bounds
  refine ⟨_, _, a, b, by norm_num, rfl, ?_⟩
  have h : magnitudeRows.find? (fun row => row.hits (magnitudeOf 0x7F#8)) = some rowP6 := by decide
  simp [byteValue, isZeroByte, isNaR, h]

/-- UnpackRegimeValueOfTheRun: a run with a terminator (`0x40`, `r = 1`, and `0x01`, `r = 6`) and one without (`0x7F`,
`r = 7`). -/
theorem witness_runs :
    ((0x40#8).getLsbD 6 = true ∧ (0x40#8).getLsbD (6 - 1) = !true) ∧
    ((∀ i < 6, (0x01#8).getLsbD (6 - i) = false) ∧ (0x01#8).getLsbD (6 - 6) = !false) ∧
    (∀ i < 7, (0x7F#8).getLsbD (6 - i) = true) := by decide

/-- EachByteHasAnIntervalOfInputs and InfinityPolicyChangesOnlyInfinities. -/
theorem witness_interval_ends :
    0x01 ≤ (0x01#8).toNat ∧ (0x7E#8).toNat ≤ 0x7E ∧ (0x7FC00000#32 : BitVec 32) ≠ 0x7F800000#32 ∧
    (0x7FC00000#32 : BitVec 32) ≠ 0xFF800000#32 := by decide

/-- DivisorOf128BreaksTheRoundTrip: a byte with a value. -/
theorem witness_byte_with_a_value : byteValue 0x00#8 ≠ none := by
  have h : byteValue 0x00#8 = some 0 := rfl
  simp [h]

end Sys2Proof.Tests
end

