-- ==== Sys2Proof/Proofs/Neg8.lean ====
section
/-! Negation of a byte (R7): what `neg8` computes, that it undoes itself, and the bytes it leaves alone. -/

namespace Sys2Proof

/-- R7's formula, read as a number. -/
theorem toNat_neg8 (b : BitVec 8) : (neg8 b).toNat = (256 - b.toNat) % 256 := by
  rw [neg8_eq_neg, BitVec.toNat_neg]

@[simp] theorem neg8_neg8 (b : BitVec 8) : neg8 (neg8 b) = b := by
  rw [neg8_eq_neg, neg8_eq_neg, BitVec.neg_neg]

/-- A byte is its own negation when twice its number is a multiple of 256: only at 0 and at 128. -/
theorem neg8_eq_self_iff (b : BitVec 8) : neg8 b = b ↔ b = 0x00#8 ∨ b = 0x80#8 := by
  have number_iff : (256 - b.toNat) % 256 = b.toNat ↔ b.toNat = 0 ∨ b.toNat = 128 := by
    have := b.isLt
    omega
  simpa [← BitVec.toNat_inj, toNat_neg8] using number_iff

end Sys2Proof

namespace Sys2Proof.Proofs

/-- Settles O16: the formula, the involution and the fixed points of `neg8`, each a lemma of its own. -/
theorem negatingAByteTwiceGivesItBack : Obligations.NegatingAByteTwiceGivesItBack :=
  fun b => ⟨toNat_neg8 b, neg8_neg8 b, neg8_eq_self_iff b⟩

end Sys2Proof.Proofs
end

