-- ==== Sys2Proof/Proofs/MagnitudeRows.lean ====
section
/-! The rows of the table of R36: which bits of a magnitude byte a row fixes, and what UNPACK and TOFLOAT read from the byte
of a row, whatever the row and its field. -/

namespace Sys2Proof

/-! ### A magnitude byte under a sign (R32, R54) -/

theorem byteSign_eq_decide (b : PositByte) : byteSign b = decide (128 ≤ b.toNat) := by
  simpa [byteSign, BitVec.msb_eq_getLsbD_last] using BitVec.msb_eq_decide b

theorem toNat_rawByte_true {m : BitVec 8} (h0 : m ≠ 0x00#8) : (rawByte true m).toNat = 256 - m.toNat := by
  have hpos : m.toNat ≠ 0 := fun h => h0 (BitVec.eq_of_toNat_eq h)
  rw [rawByte_true, toNat_neg8]
  omega

section
variable {m : BitVec 8} (h7 : byteSign m = false) (h0 : m ≠ 0x00#8) (sign : Bool)
include h7 h0

/-- Neither sign of a magnitude byte other than 0 reaches one of the reserved bytes, and bit 7 is the sign. -/
theorem rawByte_range :
    if sign then 128 < (rawByte sign m).toNat else 0 < (rawByte sign m).toNat ∧ (rawByte sign m).toNat < 128 := by
  have hpos : m.toNat ≠ 0 := fun h => h0 (BitVec.eq_of_toNat_eq h)
  have hlt : m.toNat < 128 := by simpa [byteSign_eq_decide] using h7
  cases sign with
  | false => simp; omega
  | true => simp [toNat_rawByte_true h0]; omega

theorem byteSign_rawByte : byteSign (rawByte sign m) = sign := by
  have hrange := rawByte_range h7 h0 sign
  rw [byteSign_eq_decide]
  cases sign with
  | false => exact decide_eq_false (Nat.not_le.mpr hrange.2)
  | true => exact decide_eq_true (Nat.le_of_lt hrange)

theorem rawByte_ne_zero : rawByte sign m ≠ 0x00#8 := by
  intro h
  have hrange := rawByte_range h7 h0 sign
  cases sign <;> simp [h] at hrange

theorem rawByte_ne_nar : rawByte sign m ≠ 0x80#8 := by
  intro h
  have hrange := rawByte_range h7 h0 sign
  cases sign <;> simp [h] at hrange

theorem magnitudeOf_rawByte : magnitudeOf (rawByte sign m) = m := by
  rw [magnitudeOf, byteSign_rawByte h7 h0]
  cases sign with
  | false => rfl
  | true => exact neg8_neg8 m

end

/-! ### The bits a row fixes (R36, R37) -/

/-- A row fixes every bit of the magnitude byte above its fraction field, and no bit of the field. -/
theorem MagnitudeRow.getLsbD_mask : ∀ row ∈ magnitudeRows, ∀ i < 8, row.mask.getLsbD i = decide (row.rem ≤ i) := by
  decide

theorem MagnitudeRow.pattern_and_mask : ∀ row ∈ magnitudeRows, row.pattern &&& row.mask = row.pattern := by
  decide

theorem MagnitudeRow.fractionFromField_pattern :
    ∀ row ∈ magnitudeRows, Machine.fractionFromField row.pattern row.rem = 0#6 := by
  decide

/-- A magnitude byte of a row has the row's bits where the mask has a 1. -/
theorem MagnitudeRow.getLsbD_of_hits {row : MagnitudeRow} {m : BitVec 8} (h : row.hits m = true) {i : Nat}
    (hi : row.mask.getLsbD i = true) : m.getLsbD i = row.pattern.getLsbD i := by
  have hm : m &&& row.mask = row.pattern := by simpa [MagnitudeRow.hits] using h
  simp [← hm, hi]

theorem MagnitudeRow.byteSign_of_hits {row : MagnitudeRow} (hrow : row ∈ magnitudeRows) {m : BitVec 8}
    (h : row.hits m = true) : byteSign m = false := by
  have htop : ∀ row ∈ magnitudeRows, row.mask.getLsbD 7 = true ∧ row.pattern.getLsbD 7 = false := by decide
  exact (MagnitudeRow.getLsbD_of_hits h (htop row hrow).1).trans (htop row hrow).2

section
variable {row : MagnitudeRow} (hrow : row ∈ magnitudeRows) {field : BitVec 8}
include hrow

/-- A field that fits leaves the row's bits alone, so the byte is of the row. -/
theorem MagnitudeRow.hits_magnitude (hfield : field.toNat < 2 ^ row.rem) : row.hits (row.magnitude field) = true := by
  have field_and_mask : field &&& row.mask = 0#8 := by
    apply BitVec.eq_of_getLsbD_eq
    intro i hi
    rw [BitVec.getLsbD_and, MagnitudeRow.getLsbD_mask row hrow i hi]
    by_cases hrem : row.rem ≤ i
    · have hsmall : field.toNat < 2 ^ i := hfield.trans_le (Nat.pow_le_pow_right (by decide) hrem)
      simp [BitVec.getLsbD, Nat.testBit_lt_two_pow hsmall]
    · simp [hrem]
  have magnitude_and_mask : (row.pattern ||| field) &&& row.mask = row.pattern := by
    rw [BitVec.and_comm, BitVec.and_or_distrib_left, BitVec.and_comm row.mask, BitVec.and_comm row.mask,
      MagnitudeRow.pattern_and_mask row hrow, field_and_mask, BitVec.or_zero]
  simpa [MagnitudeRow.hits, MagnitudeRow.magnitude] using magnitude_and_mask

/-- The row's own bits are shifted out when its field is aligned left (R39). -/
theorem MagnitudeRow.fractionFromField_magnitude :
    Machine.fractionFromField (row.magnitude field) row.rem = Machine.fractionFromField field row.rem := by
  have hpattern := MagnitudeRow.fractionFromField_pattern row hrow
  simp only [Machine.fractionFromField] at hpattern
  simp only [Machine.fractionFromField, MagnitudeRow.magnitude, BitVec.setWidth_or, BitVec.shiftLeft_or_distrib, hpattern,
    BitVec.zero_or]

end

end Sys2Proof

namespace Sys2Proof.Machine

open Sys2Proof

/-! ### UNPACK's scan (R63, R67) -/

/-- The length of the run after `n` positions below bit 6 have been scanned. -/
def runAfter (m : BitVec 8) : Nat → Nat
  | 0 => 1
  | n + 1 => if runAfter m n = n + 1 ∧ m.getLsbD (5 - n) = m.getLsbD 6 then runAfter m n + 1 else runAfter m n

theorem regimeRun_eq_runAfter (m : BitVec 8) : regimeRun m = runAfter m 6 := rfl

/-- A run of `r` equal bits from bit 6 down, ended by a bit that differs unless it reaches bit 0. -/
structure IsRun (m : BitVec 8) (r : Nat) : Prop where
  pos  : 1 ≤ r
  le   : r ≤ 7
  same : ∀ i < r, m.getLsbD (6 - i) = m.getLsbD 6
  stop : r ≤ 6 → m.getLsbD (6 - r) = !m.getLsbD 6

/-- The scan grows by one at each position of the run, and stays from the terminator on. -/
theorem IsRun.runAfter_eq {m : BitVec 8} {r : Nat} (h : IsRun m r) : ∀ n ≤ 6, runAfter m n = min (n + 1) r
  | 0, _ => by simp [runAfter, h.pos]
  | n + 1, hn => by
    have position : 5 - n = 6 - (n + 1) := by omega
    rw [runAfter, h.runAfter_eq n (by omega), position]
    rcases Nat.lt_trichotomy (n + 1) r with before | rfl | after
    · rw [if_pos ⟨by omega, h.same _ before⟩]
      omega
    · rw [h.stop hn]
      simp
    · rw [if_neg (by omega)]
      omega

theorem IsRun.regimeRun_eq {m : BitVec 8} {r : Nat} (h : IsRun m r) : regimeRun m = r := by
  rw [regimeRun_eq_runAfter, h.runAfter_eq 6 le_rfl]
  exact Nat.min_eq_right h.le

section
variable {row : MagnitudeRow} (hrow : row ∈ magnitudeRows) {m : BitVec 8} (h : row.hits m = true)
include hrow h

/-- The run and its terminator lie in the bits that the row fixes, so every byte of the row has the run of the row's pattern. -/
theorem regimeRun_of_hits : regimeRun m = regimeRun row.pattern := by
  have pattern_run : ∀ row ∈ magnitudeRows, 1 ≤ regimeRun row.pattern ∧ regimeRun row.pattern ≤ 7 ∧
      (∀ i < regimeRun row.pattern,
        row.mask.getLsbD (6 - i) = true ∧ row.pattern.getLsbD (6 - i) = row.pattern.getLsbD 6) ∧
      (regimeRun row.pattern ≤ 6 → row.mask.getLsbD (6 - regimeRun row.pattern) = true ∧
        row.pattern.getLsbD (6 - regimeRun row.pattern) = !row.pattern.getLsbD 6) := by decide
  obtain ⟨pos, le, same, stop⟩ := pattern_run row hrow
  have top : m.getLsbD 6 = row.pattern.getLsbD 6 := MagnitudeRow.getLsbD_of_hits h (same 0 pos).1
  have run : IsRun m (regimeRun row.pattern) :=
    { pos, le
      same := fun i hi => by rw [MagnitudeRow.getLsbD_of_hits h (same i hi).1, (same i hi).2, top]
      stop := fun hr => by rw [MagnitudeRow.getLsbD_of_hits h (stop hr).1, (stop hr).2, top] }
  exact run.regimeRun_eq

theorem regimeValue_of_hits : regimeValue m = row.k := by
  have pattern_value : ∀ row ∈ magnitudeRows, row.mask.getLsbD 6 = true ∧ regimeValue row.pattern = row.k := by decide
  obtain ⟨fixed, value⟩ := pattern_value row hrow
  rw [← value, regimeValue, regimeValue, regimeRun_of_hits hrow h, MagnitudeRow.getLsbD_of_hits h fixed]

theorem fractionBitsOfRun_of_hits : fractionBitsOfRun (regimeRun m) = row.rem := by
  have pattern_rem : ∀ row ∈ magnitudeRows, fractionBitsOfRun (regimeRun row.pattern) = row.rem := by decide
  rw [regimeRun_of_hits hrow h, pattern_rem row hrow]

end

/-! ### What the units read from a row's byte -/

/-- The fields a row stands for: its regime value and its field aligned left (R39, R64, R65, R66). -/
def rowFields (row : MagnitudeRow) (sign : Bool) (field : BitVec 8) : DecodedFields :=
  { sign, k := BitVec.ofInt 4 row.k, exponent := 0#1, fraction := fractionFromField field row.rem }

theorem showRow_eq_showByte (s : State) (row : MagnitudeRow) (sign : Bool) (field : BitVec 8) :
    s.showRow row sign field = s.showByte (rawByte sign (row.magnitude field)) (rowFields row sign field)
      (floatOfFields Config.divisor (rowFields row sign field)) := rfl

section
variable {row : MagnitudeRow} (hrow : row ∈ magnitudeRows) (hvalued : row ≠ rowM7) {field : BitVec 8}
  (hfield : field.toNat < 2 ^ row.rem) (sign : Bool)
include hrow hvalued

theorem magnitude_ne_zero : row.magnitude field ≠ 0x00#8 := by
  have pattern_ne_zero : ∀ row ∈ magnitudeRows, row ≠ rowM7 → row.pattern ≠ 0x00#8 := by decide
  exact fun h => pattern_ne_zero row hrow hvalued (BitVec.or_eq_zero_iff.mp h).1

include hfield

/-- UNPACK of a row's byte reports the row's fields. -/
theorem unpackByte_of_row : unpackByte (rawByte sign (row.magnitude field)) = rowFields row sign field := by
  have hits := MagnitudeRow.hits_magnitude hrow hfield
  have positive := MagnitudeRow.byteSign_of_hits hrow hits
  have nonzero : row.magnitude field ≠ 0x00#8 := magnitude_ne_zero hrow hvalued
  rw [unpackByte, if_neg (rawByte_ne_nar positive nonzero sign)]
  simp only [byteSign_rawByte positive nonzero, magnitudeOf_rawByte positive nonzero, regimeValue_of_hits hrow hits,
    fractionBitsOfRun_of_hits hrow hits, MagnitudeRow.fractionFromField_magnitude hrow, rowFields]

/-- TOFLOAT of a row's byte is the float of the row's fields, since no row with a value has a reserved byte. -/
theorem decodeByte_of_row (div : Config.Divisor) :
    decodeByte div (rawByte sign (row.magnitude field)) = floatOfFields div (rowFields row sign field) := by
  have hits := MagnitudeRow.hits_magnitude hrow hfield
  have positive := MagnitudeRow.byteSign_of_hits hrow hits
  have nonzero : row.magnitude field ≠ 0x00#8 := magnitude_ne_zero hrow hvalued
  rw [decodeByte, if_neg (rawByte_ne_zero positive nonzero sign), if_neg (rawByte_ne_nar positive nonzero sign),
    unpackByte_of_row hrow hvalued hfield]

end

end Sys2Proof.Machine
end

