-- ==== Sys2Proof/Proofs/RoundTrip.lean ====
section
/-! The decoder against the encoder: the classes of a binary32 word by its fields (R41), the words that decode to well-formed
instructions, and the round trip from an instruction. -/

namespace Sys2Proof

/-! ### Classes of binary32 words (R40, R41) -/

theorem floatWord_inj {s s' : Bool} {e e' : BitVec 8} {m m' : BitVec 23} :
    floatWord s e m = floatWord s' e' m' ↔ s = s' ∧ e = e' ∧ m = m' := by
  constructor
  · intro h
    have hs := congrArg floatSign h
    have he := congrArg floatExponent h
    have hm := congrArg floatSignificand h
    simp only [floatSign_floatWord, floatExponent_floatWord, floatSignificand_floatWord] at hs he hm
    exact ⟨hs, he, hm⟩
  · rintro ⟨rfl, rfl, rfl⟩
    rfl

theorem floatWord_and (s s' : Bool) (e e' : BitVec 8) (m m' : BitVec 23) :
    floatWord s e m &&& floatWord s' e' m' = floatWord (s && s') (e &&& e') (m &&& m') := by
  apply BitVec.eq_of_getLsbD_eq
  intro i _
  simp only [BitVec.getLsbD_and, getLsbD_floatWord]
  split_ifs with significand exponent
  · rfl
  · rfl
  · cases decide (i = 31) <;> simp

/-- The masks of the BINARY32 rows, as fields: everything but the sign, and the exponent alone. -/
theorem and_magnitudeMask (x : Binary32) :
    x &&& 0x7FFFFFFF#32 = floatWord false (floatExponent x) (floatSignificand x) := by
  have mask : (0x7FFFFFFF#32 : BitVec 32) = floatWord false 0xFF#8 0x7FFFFF#23 := by decide
  conv_lhs => rw [← floatWord_of_fields x, mask, floatWord_and]
  rw [Bool.and_false, show (0xFF#8 : BitVec 8) = BitVec.allOnes 8 from rfl,
    show (0x7FFFFF#23 : BitVec 23) = BitVec.allOnes 23 from rfl, BitVec.and_allOnes, BitVec.and_allOnes]

theorem and_exponentMask (x : Binary32) : x &&& 0x7F800000#32 = floatWord false (floatExponent x) 0#23 := by
  conv_lhs => rw [← floatWord_of_fields x]
  rw [Laws.TableRow.floatWord_and_exponentMask]

/-- The priority order of the BINARY32 rows is a case split on the exponent field and then on the significand. -/
theorem decodeBinary32_eq (x : Binary32) :
    decodeBinary32 x =
      if floatExponent x = 0xFF#8 then
        if floatSignificand x = 0#23 then .f32Inf (floatSign x) else .f32Nan (floatSign x) (floatSignificand x)
      else if floatExponent x = 0x00#8 then
        if floatSignificand x = 0#23 then .f32Zero (floatSign x) else .f32Subnormal (floatSign x) (floatSignificand x)
      else .f32Normal (floatSign x) (floatExponent x) (floatSignificand x) := by
  have top : (0x7F800000#32 : BitVec 32) = floatWord false 0xFF#8 0#23 := by decide
  have bottom : (0x00000000#32 : BitVec 32) = floatWord false 0x00#8 0#23 := by decide
  have isInf : x &&& 0x7FFFFFFF#32 = 0x7F800000#32 ↔ floatExponent x = 0xFF#8 ∧ floatSignificand x = 0#23 := by
    rw [and_magnitudeMask, top, floatWord_inj]
    simp
  have isTop : x &&& 0x7F800000#32 = 0x7F800000#32 ↔ floatExponent x = 0xFF#8 := by
    rw [and_exponentMask, top, floatWord_inj]
    simp
  have isZero : x &&& 0x7FFFFFFF#32 = 0x00000000#32 ↔ floatExponent x = 0x00#8 ∧ floatSignificand x = 0#23 := by
    rw [and_magnitudeMask, bottom, floatWord_inj]
    simp
  have isBottom : x &&& 0x7F800000#32 = 0x00000000#32 ↔ floatExponent x = 0x00#8 := by
    rw [and_exponentMask, bottom, floatWord_inj]
    simp
  simp only [decodeBinary32, isInf, isTop, isZero, isBottom, ite_and]
  split_ifs <;> rfl

/-! ### Well-formed float rows, and what decodes is well-formed (R41, R44) -/

theorem wellFormed_f32Nan (sign : Bool) (m : BitVec 23) : WellFormed (.f32Nan sign m) ↔ m ≠ 0#23 := bne_iff_ne

theorem wellFormed_f32Subnormal (sign : Bool) (m : BitVec 23) : WellFormed (.f32Subnormal sign m) ↔ m ≠ 0#23 :=
  bne_iff_ne

theorem wellFormed_f32Normal (sign : Bool) (e : BitVec 8) (m : BitVec 23) :
    WellFormed (.f32Normal sign e m) ↔ e ≠ 0x00#8 ∧ e ≠ 0xFF#8 := by
  simp [WellFormed, Instr.wellFormed]

theorem wellFormed_ite {c : Prop} [Decidable c] {i j : Instr} (hi : WellFormed i) (hj : WellFormed j) :
    WellFormed (if c then i else j) := by
  split
  · exact hi
  · exact hj

/-- Whichever of the 14 rows a magnitude byte is of, the row admits every operand. -/
theorem wellFormed_decodeMagnitude (sign : Bool) (m : BitVec 7) : WellFormed (decodeMagnitude sign m) := by
  unfold decodeMagnitude
  iterate 13 refine wellFormed_ite rfl ?_
  rfl

theorem wellFormed_decodePosit (b : PositByte) : WellFormed (decodePosit b) :=
  wellFormed_ite rfl (wellFormed_ite rfl (wellFormed_decodeMagnitude _ _))

theorem wellFormed_decodeBinary32 (x : Binary32) : WellFormed (decodeBinary32 x) := by
  rw [decodeBinary32_eq]
  split_ifs with top fraction bottom fraction
  · rfl
  · exact (wellFormed_f32Nan _ _).mpr fraction
  · rfl
  · exact (wellFormed_f32Subnormal _ _).mpr fraction
  · exact (wellFormed_f32Normal _ _ _).mpr ⟨bottom, top⟩

theorem wellFormed_decode (w : PortWord) : WellFormed (decode w) := by
  cases w with
  | pack | unpack | fromFloat | toFloat => rfl
  | posit b => exact wellFormed_decodePosit b
  | magnitude m => exact wellFormed_decodeMagnitude false m
  | binary32 x => exact wellFormed_decodeBinary32 x

/-! ### The round trip -/

/-- The word of a float row decodes by the row's own fields. -/
theorem decodeBinary32_floatWord (sign : Bool) (e : BitVec 8) (m : BitVec 23) :
    decodeBinary32 (floatWord sign e m) =
      if e = 0xFF#8 then if m = 0#23 then .f32Inf sign else .f32Nan sign m
      else if e = 0x00#8 then if m = 0#23 then .f32Zero sign else .f32Subnormal sign m
      else .f32Normal sign e m := by
  simp only [decodeBinary32_eq, floatSign_floatWord, floatExponent_floatWord, floatSignificand_floatWord]

/-- Decoding gives back every well-formed instruction that was encoded. A POSIT8 row has at most 64 operand values, which are
listed; a BINARY32 row is told by its fields, and is the row that WellFormed demands. -/
theorem decode_encode {i : Instr} (hi : WellFormed i) : decode (encode i) = i := by
  cases i with
  | pack | unpack | fromFloat | toFloat => rfl
  | zero | nar | kM7 => decide
  | kP6 sign | kP5 sign | kM6 sign => revert sign; decide
  | kP4 sign f | kM5 sign f | kP3 sign f | kM4 sign f | kP2 sign f | kM3 sign f | kP1 sign f | kM2 sign f | kP0 sign f
  | kM1 sign f => revert sign f; decide
  | f32Inf sign | f32Zero sign => exact decodeBinary32_floatWord sign _ 0#23
  | f32Nan sign m =>
    exact (decodeBinary32_floatWord sign 0xFF#8 m).trans (if_neg ((wellFormed_f32Nan sign m).mp hi))
  | f32Subnormal sign m =>
    exact (decodeBinary32_floatWord sign 0x00#8 m).trans (if_neg ((wellFormed_f32Subnormal sign m).mp hi))
  | f32Normal sign e m =>
    obtain ⟨notBottom, notTop⟩ := (wellFormed_f32Normal sign e m).mp hi
    exact (decodeBinary32_floatWord sign e m).trans ((if_neg notTop).trans (if_neg notBottom))

end Sys2Proof
end

