-- ==== Sys2Proof/Proofs/Settled.lean ====
section
/-! Settled wires (R10): each shared operation keeps them settled when it shows a unit the operation's own output, and so
does every well-formed instruction. An ill-formed F32_NORMAL does not: with exponent 255 it shows PACK's byte where
FROMFLOAT gives NaR. -/

namespace Sys2Proof.Machine

open Sys2Proof

/-! ### The shared operations -/

namespace Settled

variable {s : State} (h : Settled s)
include h

theorem setPending (l : List Stimulus) : Settled (s.setPending l) :=
  ⟨h.pack, h.unpack, h.encoder, h.decoder⟩

theorem showPack (p : PackInputs) : Settled (s.showPack { inputs := p, byte := packByte p }) :=
  ⟨rfl, h.unpack, h.encoder, h.decoder⟩

theorem showUnpack {b : PositByte} {d : DecodedFields} (hd : d = unpackByte b) :
    Settled (s.showUnpack { byte := b, fields := d }) :=
  ⟨h.pack, hd, h.encoder, h.decoder⟩

theorem showEncoder {x : Binary32} {b : PositByte} (hb : b = encodeFloat Config.infPolicy x) :
    Settled (s.showEncoder { fIn := x, pOut := b }) :=
  ⟨h.pack, h.unpack, hb, h.decoder⟩

theorem showDecoder {b : PositByte} {f : Binary32} (hf : f = decodeByte Config.divisor b) :
    Settled (s.showDecoder { pIn := b, fOut := f }) :=
  ⟨h.pack, h.unpack, h.encoder, hf⟩

theorem showByte {b : PositByte} {d : DecodedFields} {f : Binary32} (hd : d = unpackByte b)
    (hf : f = decodeByte Config.divisor b) : Settled (s.showByte b d f) :=
  (h.showUnpack hd).showDecoder hf

/-- A row of R36 shows both units what they read from its byte, if its field fits. -/
theorem showRow {row : MagnitudeRow} (hrow : row ∈ magnitudeRows) (hvalued : row ≠ rowM7) (sign : Bool)
    {field : BitVec 8} (hfield : field.toNat < 2 ^ row.rem) : Settled (s.showRow row sign field) := by
  rw [showRow_eq_showByte]
  exact h.showByte (unpackByte_of_row hrow hvalued hfield sign).symm
    (decodeByte_of_row hrow hvalued hfield sign Config.divisor).symm

end Settled

/-! ### FROMFLOAT on the class of a float row -/

theorem encodeFloat_floatWord (policy : Config.InfPolicy) (sign : Bool) (e : BitVec 8) (m : BitVec 23) :
    encodeFloat policy (floatWord sign e m) =
      if e = 0xFF#8 then if m = 0#23 then infinityByte policy sign else 0x80#8
      else if e = 0x00#8 then 0x00#8
      else packByte (packInputsOfFloat sign e m) := by
  simp only [encodeFloat, floatSign_floatWord, floatExponent_floatWord, floatSignificand_floatWord]

/-! ### Every instruction -/

theorem toNat_setWidth_lt {n : Nat} (hn : n ≤ 8) (f : BitVec n) : (f.setWidth 8).toNat < 2 ^ n := by
  rw [BitVec.toNat_setWidth_of_le hn]
  exact f.isLt

/-- A well-formed instruction answers a state whose wires are settled again. -/
theorem exec_settled {i : Instr} (hi : WellFormed i) {s : State} (h : Settled s) :
    ∃ t, exec i s = .next t ∧ Settled t := by
  cases i with
  | pack => exact ⟨_, rfl, h.showPack _⟩
  | unpack => exact ⟨_, rfl, h.showUnpack rfl⟩
  | fromFloat => exact ⟨_, rfl, h.showEncoder rfl⟩
  | toFloat => exact ⟨_, rfl, h.showDecoder rfl⟩
  | zero => exact ⟨_, rfl, h.showByte (by decide) rfl⟩
  | nar => exact ⟨_, rfl, h.showByte (by decide) rfl⟩
  | kM7 => exact ⟨_, rfl, h.showUnpack (by decide)⟩
  | kP6 sign | kP5 sign | kM6 sign => exact ⟨_, rfl, h.showRow (by decide) (by decide) sign (by decide)⟩
  | kP4 sign f | kP3 sign f | kP2 sign f | kP1 sign f | kP0 sign f | kM1 sign f | kM2 sign f | kM3 sign f | kM4 sign f
  | kM5 sign f => exact ⟨_, rfl, h.showRow (by decide) (by decide) sign (toNat_setWidth_lt (by decide) f)⟩
  | f32Inf sign => exact ⟨_, rfl, h.showEncoder (encodeFloat_floatWord Config.infPolicy sign 0xFF#8 0#23).symm⟩
  | f32Nan sign m =>
    have hm := (wellFormed_f32Nan sign m).mp hi
    exact ⟨_, rfl, h.showEncoder ((encodeFloat_floatWord Config.infPolicy sign 0xFF#8 m).trans (if_neg hm)).symm⟩
  | f32Zero sign => exact ⟨_, rfl, h.showEncoder (encodeFloat_floatWord Config.infPolicy sign 0x00#8 0#23).symm⟩
  | f32Subnormal sign m => exact ⟨_, rfl, h.showEncoder (encodeFloat_floatWord Config.infPolicy sign 0x00#8 m).symm⟩
  | f32Normal sign e m =>
    obtain ⟨notBottom, notTop⟩ := (wellFormed_f32Normal sign e m).mp hi
    have ordinary := (encodeFloat_floatWord Config.infPolicy sign e m).trans ((if_neg notTop).trans (if_neg notBottom))
    exact ⟨_, rfl, h.showEncoder ordinary.symm⟩

/-- A step answers a state whose wires are settled again, since every word decodes to a well-formed instruction. -/
theorem step_settled {s : State} (h : Settled s) : ∃ t, step s = .next t ∧ Settled t := by
  cases hp : s.pending with
  | nil => exact ⟨s, step_nil hp, h⟩
  | cons st rest =>
    rw [step_cons hp]
    exact exec_settled (wellFormed_decode _) (h.setPending rest)

end Sys2Proof.Machine

namespace Sys2Proof.Proofs

open Sys2Proof Sys2Proof.Machine

/-- Settles O10, by cases on the pending stimulus and on the instruction it decodes to. -/
theorem stepKeepsTheWiresSettled : Obligations.StepKeepsTheWiresSettled := by
  intro s t h hstep
  obtain ⟨t', hstep', h'⟩ := step_settled h
  obtain rfl : t' = t := Host.Outcome.next.inj (hstep'.symm.trans hstep)
  exact h'

end Sys2Proof.Proofs
end

