-- ==== Sys2Proof/Proofs/Steps.lean ====
section
/-! What one step runs: the stimulus at the head of the list, driven or wired. -/

namespace Sys2Proof.Proofs

open Sys2Proof Sys2Proof.Machine

/-- Settles O2: the driven word is the encoding, and decoding gives the instruction back. -/
theorem stepRunsTheEncodedInstruction : Obligations.StepRunsTheEncodedInstruction := by
  intro s i rest hi hp
  rw [step_cons hp, word_drive, decode_encode hi]
  rfl

/-- Settles O1, by the two cases of the pending list. -/
theorem stepRunsTheDecodedStimulus : Obligations.StepRunsTheDecodedStimulus :=
  ⟨fun _ _ _ hp => step_cons hp, fun _ hp => step_nil hp⟩

/-- Settles O3: each wiring's word is the target unit's row with the source unit's outputs on its ports. -/
theorem wiredUnitsTakeTheOtherUnitsOutputs : Obligations.WiredUnitsTakeTheOtherUnitsOutputs := by
  intro s rest
  refine ⟨?_, ?_, ?_, ?_⟩ <;> intro hp <;> rw [step_cons hp]
  · rw [word_unpackToPack]; rfl
  · rw [word_packToUnpack]; rfl
  · rw [word_encoderToDecoder]; rfl
  · rw [word_decoderToEncoder]; rfl

end Sys2Proof.Proofs
end

