-- ==== Sys2Proof/Proofs/Frame.lean ====
section
/-! What an evaluation does to the wires of the other units and to a second evaluation (R24, R26). By `exec_shows` an
instruction lays its own ports, where it has some, over those of the state; each statement here is a fact about such
overlays, one per unit. -/

namespace Sys2Proof.Proofs

open Sys2Proof Sys2Proof.Machine

/-! ### Overlays: `a.getD x` is `x` with `a` laid over it -/

section
variable {α : Type} {a b : Option α}

theorem getD_eq_of_not_isSome (h : ¬ a.isSome) (x : α) : a.getD x = x := by
  rw [Option.not_isSome_iff_eq_none.mp h, Option.getD_none]

/-- Two overlays commute when at most one of them lays anything. -/
theorem getD_getD_comm (h : a.isSome → ¬ b.isSome) (x : α) : b.getD (a.getD x) = a.getD (b.getD x) := by
  cases a with
  | none => rfl
  | some y => rw [Option.getD_some, Option.getD_some, getD_eq_of_not_isSome (h rfl)]

theorem getD_getD_self (a : Option α) (x : α) : a.getD (a.getD x) = a.getD x := by
  cases a <;> rfl

end

/-! ### The statements -/

/-- Settles O5: what an instruction lays over the state it lays over the units it drives alone. -/
theorem everyInstructionCompletesAndKeepsOtherUnits : Obligations.EveryInstructionCompletesAndKeepsOtherUnits := by
  intro i s
  obtain ⟨p, u, e, d, hexec, hp, hu, he, hd⟩ := exec_shows i
  refine ⟨_, hexec s, rfl, fun unit undriven => ?_⟩
  cases unit with
  | pack => exact getD_eq_of_not_isSome (mt hp.mp undriven) s.pack
  | unpack => exact getD_eq_of_not_isSome (mt hu.mp undriven) s.unpack
  | encoder => exact getD_eq_of_not_isSome (mt he.mp undriven) s.encoder
  | decoder => exact getD_eq_of_not_isSome (mt hd.mp undriven) s.decoder

/-- Settles O8: at each unit at most one of the two instructions lays anything, so the overlays commute. -/
theorem evaluationsOnDifferentUnitsCommute : Obligations.EvaluationsOnDifferentUnitsCommute := by
  intro i j s different
  obtain ⟨p, u, e, d, hi, hp, hu, he, hd⟩ := exec_shows i
  obtain ⟨p', u', e', d', hj, hp', hu', he', hd'⟩ := exec_shows j
  have pack_comm := getD_getD_comm (fun h => mt hp'.mp (different _ (hp.mp h))) s.pack
  have unpack_comm := getD_getD_comm (fun h => mt hu'.mp (different _ (hu.mp h))) s.unpack
  have encoder_comm := getD_getD_comm (fun h => mt he'.mp (different _ (he.mp h))) s.encoder
  have decoder_comm := getD_getD_comm (fun h => mt hd'.mp (different _ (hd.mp h))) s.decoder
  refine ⟨_, _, _, hi s, hj _, hj s, ?_⟩
  rw [hi, pack_comm, unpack_comm, encoder_comm, decoder_comm]

/-- Settles O9: the second evaluation lays the same ports over themselves. -/
theorem repeatingAnEvaluationChangesNothing : Obligations.RepeatingAnEvaluationChangesNothing := by
  intro i s
  obtain ⟨p, u, e, d, hexec, -⟩ := exec_shows i
  refine ⟨_, hexec s, ?_⟩
  rw [hexec, getD_getD_self, getD_getD_self, getD_getD_self, getD_getD_self]

end Sys2Proof.Proofs
end

