-- ==== Sys2Proof/Proofs/MagnitudeTable.lean ====
section
/-! The table of R36 as ranges: the bytes of a row are an interval, every magnitude byte is of exactly one row, and UNPACK
reads from a byte its row's `k` and the low `rem` bits aligned left. -/

namespace Sys2Proof

/-! ### Exactly one row -/

section
variable {row other : MagnitudeRow} (hrow : row ∈ magnitudeRows) {m : BitVec 8} (h : row.hits m = true)
include hrow h

/-- UNPACK's regime value tells the rows apart, so no two of them share a byte. -/
theorem MagnitudeRow.eq_of_hits (hother : other ∈ magnitudeRows) (h' : other.hits m = true) : other = row := by
  have k_tells_rows_apart : ∀ row ∈ magnitudeRows, ∀ other ∈ magnitudeRows, other.k = row.k → other = row := by decide
  have same_k : other.k = row.k :=
    (Machine.regimeValue_of_hits hother h').symm.trans (Machine.regimeValue_of_hits hrow h)
  exact k_tells_rows_apart row hrow other hother same_k

theorem filter_hits_eq_singleton : magnitudeRows.filter (fun row => row.hits m) = [row] := by
  have nodup : magnitudeRows.Nodup := by decide
  have perm : (magnitudeRows.filter (fun row => row.hits m)).Perm [row] := by
    rw [List.perm_ext_iff_of_nodup (nodup.filter _) (List.nodup_singleton row)]
    intro other
    rw [List.mem_filter, List.mem_singleton]
    constructor
    · exact fun ⟨hother, h'⟩ => MagnitudeRow.eq_of_hits hrow h hother h'
    · rintro rfl
      exact ⟨hrow, h⟩
  exact List.perm_singleton.mp perm

theorem find?_hits_eq_some : magnitudeRows.find? (fun row => row.hits m) = some row := by
  rw [← List.head?_filter, filter_hits_eq_singleton hrow h, List.head?_cons]

end

theorem exists_row_hits : ∀ m : BitVec 7, ∃ row ∈ magnitudeRows, row.hits (m.setWidth 8) = true := by
  decide

/-- A magnitude byte is 7 bits under a 0 (R32). -/
theorem exists_row_hits_of_le {m : BitVec 8} (h : m ≤ 0x7F#8) : ∃ row ∈ magnitudeRows, row.hits m = true := by
  have seven_bits : (m.setWidth 7).setWidth 8 = m := by
    apply BitVec.eq_of_toNat_eq
    have lt : m.toNat ≤ 127 := h
    rw [BitVec.toNat_setWidth, BitVec.toNat_setWidth]
    omega
  simpa [seven_bits] using exists_row_hits (m.setWidth 7)

/-! ### The bytes of a row are an interval -/

/-- The last byte of a row: its own bits, and ones in the field. -/
def MagnitudeRow.last (row : MagnitudeRow) : BitVec 8 := row.pattern ||| ~~~row.mask

/-- A byte is of a row when it has the row's bits above the field. -/
theorem MagnitudeRow.hits_iff_div_eq {row : MagnitudeRow} (hrow : row ∈ magnitudeRows) (m : BitVec 8) :
    row.hits m = true ↔ m.toNat / 2 ^ row.rem = row.pattern.toNat / 2 ^ row.rem := by
  constructor
  · intro h
    apply Nat.eq_of_testBit_eq
    intro i
    rw [Nat.testBit_div_two_pow, Nat.testBit_div_two_pow]
    by_cases hi : i + row.rem < 8
    · exact MagnitudeRow.getLsbD_of_hits h (by rw [MagnitudeRow.getLsbD_mask row hrow _ hi]; simp)
    · exact (BitVec.getLsbD_of_ge m _ (Nat.not_lt.mp hi)).trans (BitVec.getLsbD_of_ge row.pattern _ (Nat.not_lt.mp hi)).symm
  · intro h
    have bits : m &&& row.mask = row.pattern := by
      rw [← MagnitudeRow.pattern_and_mask row hrow]
      apply BitVec.eq_of_getLsbD_eq
      intro i hi
      rw [BitVec.getLsbD_and, BitVec.getLsbD_and, MagnitudeRow.getLsbD_mask row hrow i hi]
      by_cases hrem : row.rem ≤ i
      · have same := congrArg (Nat.testBit · (i - row.rem)) h
        simp only [Nat.testBit_div_two_pow, Nat.sub_add_cancel hrem] at same
        exact congrArg (· && _) same
      · simp [hrem]
    simpa [MagnitudeRow.hits] using bits

theorem MagnitudeRow.hits_iff_mem_interval : ∀ row ∈ magnitudeRows, ∀ m : BitVec 8,
    row.hits m = true ↔ row.pattern ≤ m ∧ m ≤ row.last := by
  have bounds : ∀ row ∈ magnitudeRows, row.pattern.toNat / 2 ^ row.rem * 2 ^ row.rem = row.pattern.toNat ∧
      row.pattern.toNat + 2 ^ row.rem - 1 = row.last.toNat := by decide
  intro row hrow m
  obtain ⟨first, last⟩ := bounds row hrow
  rw [MagnitudeRow.hits_iff_div_eq hrow, BitVec.le_def, BitVec.le_def, Nat.div_eq_iff (Nat.two_pow_pos _), first, last]

end Sys2Proof

namespace Sys2Proof.Machine

open Sys2Proof

/-! ### UNPACK of a magnitude byte -/

/-- Aligning `rem` bits left drops what lies above them (R39). -/
theorem fractionFromField_eq_ofNat (field : BitVec 8) {rem : Nat} (hrem : rem ≤ 6) :
    fractionFromField field rem = BitVec.ofNat 6 (field.toNat % 2 ^ rem * 2 ^ (6 - rem)) := by
  apply BitVec.eq_of_toNat_eq
  rw [fractionFromField, BitVec.toNat_shiftLeft, BitVec.toNat_setWidth, BitVec.toNat_ofNat, Nat.shiftLeft_eq,
    Nat.mod_mul_mod, ← Nat.mul_mod_mul_right, pow_mul_pow_sub 2 hrem, Nat.mod_mod]

theorem rem_le_six : ∀ row ∈ magnitudeRows, row.rem ≤ 6 := by
  decide

/-- UNPACK reads a byte of a row by the row (R62, R64, R65, R66). -/
theorem unpackByte_of_hits {row : MagnitudeRow} (hrow : row ∈ magnitudeRows) {m : BitVec 8} (h : row.hits m = true) :
    unpackByte m = rowFields row false m := by
  have positive := MagnitudeRow.byteSign_of_hits hrow h
  have notNar : m ≠ 0x80#8 := by
    rintro rfl
    exact absurd positive (by decide)
  have magnitude : magnitudeOf m = m := by rw [magnitudeOf, positive]; rfl
  rw [unpackByte, if_neg notNar]
  simp only [positive, magnitude, regimeValue_of_hits hrow h, fractionBitsOfRun_of_hits hrow h, rowFields]

theorem exec_unpack (b : PositByte) (s : State) :
    exec (.unpack b) s = .next (s.showUnpack { byte := b, fields := unpackByte b }) := rfl

/-- A line of R36's table as the spec prints it: `k`, first and last magnitude byte, `rem`. -/
def tableLine (row : MagnitudeRow) : Int × BitVec 8 × BitVec 8 × Nat := (row.k, row.pattern, row.last, row.rem)

end Sys2Proof.Machine

namespace Sys2Proof.Proofs

open Sys2Proof Sys2Proof.Machine

/-- Settles O15: the spec's lines are those of the rows, whose bytes are the intervals, and each byte has exactly one row. -/
theorem magnitudeTableIsWhatUnpackReads : Obligations.MagnitudeTableIsWhatUnpackReads := by
  unfold Obligations.MagnitudeTableIsWhatUnpackReads
  intro table
  have lines : table = magnitudeRows.map tableLine := by decide
  refine ⟨fun s m line hline first last => ?_, fun m hm => ?_, fun m hm => ?_⟩
  · rw [lines, List.mem_map] at hline
    obtain ⟨row, hrow, rfl⟩ := hline
    have h := (MagnitudeRow.hits_iff_mem_interval row hrow m).mpr ⟨first, last⟩
    rw [exec_unpack, unpackByte_of_hits hrow h, rowFields, fractionFromField_eq_ofNat m (rem_le_six row hrow)]
    rfl
  · obtain ⟨row, hrow, h⟩ := exists_row_hits_of_le hm
    obtain ⟨first, last⟩ := (MagnitudeRow.hits_iff_mem_interval row hrow m).mp h
    refine ⟨tableLine row, lines ▸ List.mem_map_of_mem hrow, first, last, fun line hline first' last' => ?_⟩
    rw [lines, List.mem_map] at hline
    obtain ⟨other, hother, rfl⟩ := hline
    have h' := (MagnitudeRow.hits_iff_mem_interval other hother m).mpr ⟨first', last'⟩
    rw [MagnitudeRow.eq_of_hits hrow h hother h']
  · obtain ⟨row, hrow, h⟩ := exists_row_hits_of_le hm
    rw [filter_hits_eq_singleton hrow h, List.length_singleton]

end Sys2Proof.Proofs
end

