-- ==== Sys2Proof/Proofs/WordRoundTrip.lean ====
section
/-! The encoder against the decoder, from a word: a magnitude byte is its row's bits with the byte's own fraction field, so the
row it decodes to encodes to the raw byte it came from (R36, R37). -/

namespace Sys2Proof

/-- A magnitude byte of a row is the row's pattern with the byte's low `rem` bits as the field (R37). -/
theorem MagnitudeRow.magnitude_of_hits {row : MagnitudeRow} (hrow : row ∈ magnitudeRows) {m : BitVec 8}
    (h : row.hits m = true) : row.magnitude ((m.setWidth row.rem).setWidth 8) = m := by
  apply BitVec.eq_of_getLsbD_eq
  intro i hi
  have mask := MagnitudeRow.getLsbD_mask row hrow i hi
  rw [MagnitudeRow.magnitude, BitVec.getLsbD_or, BitVec.getLsbD_setWidth, BitVec.getLsbD_setWidth]
  by_cases hrem : row.rem ≤ i
  · rw [MagnitudeRow.getLsbD_of_hits h (mask.trans (decide_eq_true hrem))]
    simp [Nat.not_lt.mpr hrem]
  · have free : row.pattern.getLsbD i = false := by
      rw [← MagnitudeRow.pattern_and_mask row hrow, BitVec.getLsbD_and, mask, decide_eq_false hrem, Bool.and_false]
    rw [free]
    simp [hi, Nat.not_le.mp hrem]

theorem encode_ite {c : Prop} [Decidable c] {i j : Instr} {w : PortWord} (hi : c → encode i = w)
    (hj : ¬c → encode j = w) : encode (if c then i else j) = w := by
  split
  · exact hi ‹c›
  · exact hj ‹¬c›

/-- The first 13 rows leave the magnitude byte `0x00` alone to K_M7. -/
theorem exists_valued_row_hits :
    ∀ m : BitVec 7, m ≠ 0#7 → ∃ row ∈ magnitudeRows, row ≠ rowM7 ∧ row.hits (m.setWidth 8) = true := by
  decide

/-- Each of the first 13 rows is encoded as the raw byte of the magnitude byte it was read from. -/
theorem encode_decodeMagnitude (sign : Bool) (m : BitVec 7) (hm : m ≠ 0#7) :
    encode (decodeMagnitude sign m) = .posit (rawByte sign (m.setWidth 8)) := by
  have byte {row : MagnitudeRow} (hrow : row ∈ magnitudeRows) (h : row.hits (m.setWidth 8) = true) :
      PortWord.posit (rawByte sign (row.magnitude (((m.setWidth 8).setWidth row.rem).setWidth 8))) =
        .posit (rawByte sign (m.setWidth 8)) := by
    rw [MagnitudeRow.magnitude_of_hits hrow h]
  have bare {row : MagnitudeRow} (hrow : row ∈ magnitudeRows) (hrem : row.rem = 0) (h : row.hits (m.setWidth 8) = true) :
      PortWord.posit (rawByte sign (row.magnitude 0#8)) = .posit (rawByte sign (m.setWidth 8)) := by
    have h := byte hrow h
    rwa [hrem, BitVec.of_length_zero (x := (m.setWidth 8).setWidth 0)] at h
  unfold decodeMagnitude
  iterate 2 refine encode_ite (bare (by decide) rfl) fun _ => ?_
  iterate 10 refine encode_ite (byte (by decide)) fun _ => ?_
  refine encode_ite (bare (by decide) rfl) fun _ => ?_
  have none_of_the_first : ∀ row ∈ magnitudeRows, row.hits (m.setWidth 8) = true → row = rowM7 := by
    simp_all [magnitudeRows]
  obtain ⟨row, hrow, hvalued, h⟩ := exists_valued_row_hits m hm
  exact absurd (none_of_the_first row hrow h) hvalued

/-- A raw byte is its magnitude byte under its sign (R32, R54). -/
theorem rawByte_magnitudeOf (b : PositByte) : rawByte (byteSign b) (magnitudeOf b) = b := by
  unfold magnitudeOf rawByte
  split
  · exact neg8_neg8 b
  · rfl

/-- Bit 7 of a magnitude byte is 0 (R32). -/
theorem toNat_magnitudeOf_lt {b : PositByte} (h : b ≠ 0x80#8) : (magnitudeOf b).toNat < 128 := by
  have notNar : b.toNat ≠ 128 := fun hb => h (BitVec.eq_of_toNat_eq hb)
  unfold magnitudeOf
  split_ifs with hs <;> rw [byteSign_eq_decide, decide_eq_true_iff] at hs
  · rw [toNat_neg8]
    omega
  · omega

theorem rawByte_zero (sign : Bool) : rawByte sign 0x00#8 = 0x00#8 := by
  cases sign <;> rfl

theorem magnitudeOf_ne_zero {b : PositByte} (h : b ≠ 0x00#8) : magnitudeOf b ≠ 0x00#8 := by
  intro hm
  exact h (by rw [← rawByte_magnitudeOf b, hm, rawByte_zero])

/-- Encoding what a raw byte decodes to gives the byte: its magnitude byte, with bit 7 clear, is not 0. -/
theorem encode_decodePosit (b : PositByte) : encode (decodePosit b) = .posit b := by
  refine encode_ite (fun h => by rw [h]; rfl) fun h0 => encode_ite (fun h => by rw [h]; rfl) fun hnar => ?_
  have low : ((magnitudeOf b).setWidth 7).setWidth 8 = magnitudeOf b := by
    apply BitVec.eq_of_toNat_eq
    have lt := toNat_magnitudeOf_lt hnar
    rw [BitVec.toNat_setWidth, BitVec.toNat_setWidth]
    omega
  have nonzero : (magnitudeOf b).setWidth 7 ≠ 0#7 := fun h => magnitudeOf_ne_zero h0 (by rw [← low, h]; rfl)
  rw [encode_decodeMagnitude (byteSign b) _ nonzero, low, rawByte_magnitudeOf]

/-- The class of a binary32 word is told by its fields, which are the operands of the row. -/
theorem encode_decodeBinary32 (x : Binary32) : encode (decodeBinary32 x) = .binary32 x := by
  have word : encode (decodeBinary32 x) =
      .binary32 (floatWord (floatSign x) (floatExponent x) (floatSignificand x)) := by
    rw [decodeBinary32_eq]
    split_ifs with top fraction bottom fraction
    · rw [top, fraction]; rfl
    · rw [top]; rfl
    · rw [bottom, fraction]; rfl
    · rw [bottom]; rfl
    · rfl
  rw [word, floatWord_of_fields]

end Sys2Proof

namespace Sys2Proof.Proofs

open Sys2Proof

/-- Settles O12: each row is decoded by its own bits, and the row a float word decodes to is the one WellFormed demands. -/
theorem decodeInvertsEncode : Obligations.DecodeInvertsEncode :=
  fun _ => decode_encode

/-- Settles O13, by cases on the word: a ported word carries the operands themselves, a pattern is put together again from
its fields. -/
theorem everyWordDecodesAndEncodesBack : Obligations.EveryWordDecodesAndEncodesBack := by
  intro w
  refine ⟨wellFormed_decode w, fun notMagnitude => ?_, ?_, ?_⟩
  · cases w with
    | pack | unpack | fromFloat | toFloat => rfl
    | posit b => exact encode_decodePosit b
    | magnitude m => exact absurd rfl (notMagnitude m)
    | binary32 x => exact encode_decodeBinary32 x
  · rintro m rfl nonzero
    exact encode_decodeMagnitude false m nonzero
  · rintro rfl
    decide

/-- Settles O14: each of the eight words is read by the decoder. -/
theorem tablePatternsDecodeToTheirRows : Obligations.TablePatternsDecodeToTheirRows := by
  unfold Obligations.TablePatternsDecodeToTheirRows
  decide

end Sys2Proof.Proofs
end

