-- ==== Sys2Proof/Proofs/RowValues.lean ====
section
/-! The number a row of R36 stands for: the float that TOFLOAT makes of the row's fields and the row's byte both denote
`±2^k × (1 + field / 2^rem)` (R38, R88, R90). -/

namespace Sys2Proof.Machine

open Sys2Proof

/-! ### The row's float -/

/-- The regime values of the table are exponents of normal floats (R92). -/
theorem exponentOfRegime_of_row : ∀ row ∈ magnitudeRows,
    ((exponentOfRegime (BitVec.ofInt 4 row.k)).toNat : ℤ) - 127 = row.k ∧
    exponentOfRegime (BitVec.ofInt 4 row.k) ≠ 0xFF#8 ∧ exponentOfRegime (BitVec.ofInt 4 row.k) ≠ 0x00#8 := by
  decide

theorem toNat_significandOfFraction (fraction : BitVec 6) :
    (significandOfFraction .div64 fraction).toNat = fraction.toNat * 2 ^ 17 := by
  change (fraction ++ 0#17).toNat = _
  rw [BitVec.toNat_append, Nat.shiftLeft_eq]
  exact Nat.or_zero _

section
variable {row : MagnitudeRow} (hrow : row ∈ magnitudeRows) {field : BitVec 8} (hfield : field.toNat < 2 ^ row.rem)
  (sign : Bool)
include hrow hfield

/-- A field that fits loses nothing when it is aligned left. -/
theorem rowFields_eq : rowFields row sign field =
    { sign, k := BitVec.ofInt 4 row.k, exponent := 0#1, fraction := BitVec.ofNat 6 (field.toNat * 2 ^ (6 - row.rem)) } := by
  rw [rowFields, fractionFromField_eq_ofNat field (rem_le_six row hrow), Nat.mod_eq_of_lt hfield]

theorem toNat_fraction_of_row : (rowFields row sign field).fraction.toNat = field.toNat * 2 ^ (6 - row.rem) := by
  rw [rowFields_eq hrow hfield, BitVec.toNat_ofNat, Nat.mod_eq_of_lt]
  rw [← pow_mul_pow_sub 2 (rem_le_six row hrow)]
  exact Nat.mul_lt_mul_of_pos_right hfield (Nat.two_pow_pos _)

theorem floatValue_of_row : floatValue (floatOfFields .div64 (rowFields row sign field)) =
    some (signFactor sign * (2 : ℚ) ^ row.k * (1 + (field.toNat : ℚ) / 2 ^ row.rem)) := by
  obtain ⟨exponent, notTop, notBottom⟩ := exponentOfRegime_of_row row hrow
  have significand : ((field.toNat * 2 ^ (6 - row.rem) * 2 ^ 17 : Nat) : ℚ) / 2 ^ 23 = field.toNat / 2 ^ row.rem := by
    have width : (2 : ℚ) ^ 23 = 2 ^ row.rem * 2 ^ (6 - row.rem) * 2 ^ 17 := by
      rw [pow_mul_pow_sub _ (rem_le_six row hrow), ← pow_add]
    rw [width, Nat.cast_mul, Nat.cast_mul, Nat.cast_pow, Nat.cast_pow, Nat.cast_ofNat]
    field_simp
  have regime : (rowFields row sign field).k = BitVec.ofInt 4 row.k := rfl
  simp only [floatValue, floatOfFields, floatExponent_floatWord, floatSignificand_floatWord, floatSign_floatWord, regime,
    if_neg notTop, if_neg notBottom, toNat_significandOfFraction, toNat_fraction_of_row hrow hfield, significand,
    exponent]
  exact congrArg some (mul_right_comm _ _ _)

/-! ### The row's byte -/

/-- The row's own bits are multiples of `2 ^ rem`. -/
theorem toNat_magnitude_mod : (row.magnitude field).toNat % 2 ^ row.rem = field.toNat := by
  have pattern_mod : ∀ row ∈ magnitudeRows, row.pattern.toNat % 2 ^ row.rem = 0 := by decide
  rw [MagnitudeRow.magnitude, BitVec.toNat_or, Nat.or_mod_two_pow, pattern_mod row hrow, Nat.zero_or,
    Nat.mod_eq_of_lt hfield]

theorem byteValue_of_row (hvalued : row ≠ rowM7) : byteValue (rawByte sign (row.magnitude field)) =
    some (signFactor sign * (2 : ℚ) ^ row.k * (1 + (field.toNat : ℚ) / 2 ^ row.rem)) := by
  have hits := MagnitudeRow.hits_magnitude hrow hfield
  have positive := MagnitudeRow.byteSign_of_hits hrow hits
  have nonzero : row.magnitude field ≠ 0x00#8 := magnitude_ne_zero hrow hvalued
  simp only [byteValue, isZeroByte, isNaR, beq_iff_eq, if_neg (rawByte_ne_zero positive nonzero sign),
    if_neg (rawByte_ne_nar positive nonzero sign), magnitudeOf_rawByte positive nonzero,
    byteSign_rawByte positive nonzero, find?_hits_eq_some hrow hits, toNat_magnitude_mod hrow hfield]

/-- A row that shows its byte and its fields shows its value. -/
theorem rowShowsItsValue (hvalued : row ≠ rowM7) {s : State} {i : Instr}
    (hexec : exec i s = .next (s.showRow row sign field)) :
    RowShowsItsValue s i sign row.k row.rem field.toNat := by
  refine ⟨rawByte sign (row.magnitude field), floatOfFields .div64 (rowFields row sign field), _, ?_, rfl,
    floatValue_of_row hrow hfield sign, byteValue_of_row hrow hfield sign hvalued⟩
  rw [hexec, showRow_eq_showByte, ← rowFields_eq hrow hfield sign]
  rfl

end

end Sys2Proof.Machine

namespace Sys2Proof.Proofs

open Sys2Proof Sys2Proof.Machine

/-- Settles O51: each of the thirteen rows shows its row of R36 with a field that fits. -/
theorem magnitudeRowsShowTheirValues : Obligations.MagnitudeRowsShowTheirValues := by
  intro s sign
  have bare (row : MagnitudeRow) (hrow : row ∈ magnitudeRows) (hvalued : row ≠ rowM7) {i : Instr}
      (hexec : exec i s = .next (s.showRow row sign 0#8)) : RowShowsItsValue s i sign row.k row.rem 0 :=
    rowShowsItsValue hrow (Nat.two_pow_pos _) sign hvalued hexec
  have withField (row : MagnitudeRow) (hrow : row ∈ magnitudeRows) (hvalued : row ≠ rowM7) {i : BitVec row.rem → Instr}
      (hexec : ∀ f, exec (i f) s = .next (s.showRow row sign (f.setWidth 8))) :
      ∀ f, RowShowsItsValue s (i f) sign row.k row.rem f.toNat := by
    intro f
    have hrem : row.rem ≤ 8 := (rem_le_six row hrow).trans (by decide)
    have shows := rowShowsItsValue hrow (toNat_setWidth_lt hrem f) sign hvalued (hexec f)
    rwa [BitVec.toNat_setWidth_of_le hrem] at shows
  refine ⟨bare rowP6 ?_ ?_ rfl, bare rowP5 ?_ ?_ rfl, withField rowP4 ?_ ?_ fun _ => rfl,
    withField rowP3 ?_ ?_ fun _ => rfl, withField rowP2 ?_ ?_ fun _ => rfl, withField rowP1 ?_ ?_ fun _ => rfl,
    withField rowP0 ?_ ?_ fun _ => rfl, withField rowM1 ?_ ?_ fun _ => rfl, withField rowM2 ?_ ?_ fun _ => rfl,
    withField rowM3 ?_ ?_ fun _ => rfl, withField rowM4 ?_ ?_ fun _ => rfl, withField rowM5 ?_ ?_ fun _ => rfl,
    bare rowM6 ?_ ?_ rfl⟩
  all_goals decide

/-- Settles O47: the extremes and ±1 are the bytes of K_P6, K_M6 and K_P0 with no fraction, so their values are `±2^k`. -/
theorem extremeBytesDecodeToTheirValues : Obligations.ExtremeBytesDecodeToTheirValues := by
  intro s
  have toFloat {b : PositByte} {x : Binary32} (h : decodeByte Config.divisor b = x) :
      exec (.toFloat b) s = .next { s with decoder := { pIn := b, fOut := x } } := by
    rw [← h]
    rfl
  have value (row : MagnitudeRow) (hrow : row ∈ magnitudeRows) (sign : Bool) {x : Binary32}
      (hx : floatOfFields .div64 (rowFields row sign 0#8) = x) :
      floatValue x = some (signFactor sign * (2 : ℚ) ^ row.k) := by
    rw [← hx, floatValue_of_row hrow (Nat.two_pow_pos _)]
    simp
  refine ⟨toFloat (by decide), toFloat (by decide), toFloat (by decide), toFloat (by decide), toFloat (by decide),
    toFloat (by decide), ?_, ?_, ?_, ?_, ?_, ?_⟩
  · rw [value rowP6 (by decide) false (by decide)]
    norm_num [signFactor, rowP6]
  · rw [value rowM6 (by decide) false (by decide)]
    norm_num [signFactor, rowM6]
  · rw [value rowP6 (by decide) true (by decide)]
    norm_num [signFactor, rowP6]
  · rw [value rowM6 (by decide) true (by decide)]
    norm_num [signFactor, rowM6]
  · rw [value rowP0 (by decide) false (by decide)]
    norm_num [signFactor, rowP0]
  · rw [value rowP0 (by decide) true (by decide)]
    norm_num [signFactor, rowP0]

end Sys2Proof.Proofs
end

