-- ==== Sys2Proof/Proofs/PatternRows.lean ====
section
/-! A pattern row against the operations that read its pattern: a raw byte is shown to UNPACK and TOFLOAT, a bare magnitude
byte to UNPACK, a binary32 pattern to FROMFLOAT (assumption 5), each with the operation's own output (R67, R80, R92). -/

namespace Sys2Proof.Machine

open Sys2Proof

/-- What the operations that read a word make of it: the pseudocode of UNPACK and TOFLOAT on a raw byte, of UNPACK on a bare
magnitude byte, of FROMFLOAT on a float; a word on one unit's ports is evaluated by that unit. -/
def State.showOperations (s : State) : PortWord → State
  | .pack p => s.showPack { inputs := p, byte := packByte p }
  | .unpack b => s.showUnpack { byte := b, fields := unpackByte b }
  | .fromFloat x => s.showEncoder { fIn := x, pOut := encodeFloat Config.infPolicy x }
  | .toFloat b => s.showDecoder { pIn := b, fOut := decodeByte Config.divisor b }
  | .posit b => s.showByte b (unpackByte b) (decodeByte Config.divisor b)
  | .magnitude m => s.showUnpack { byte := m.setWidth 8, fields := unpackByte (m.setWidth 8) }
  | .binary32 x => s.showEncoder { fIn := x, pOut := encodeFloat Config.infPolicy x }

section
variable {b : PositByte} {d : DecodedFields} {f : Binary32} {x : Binary32}

theorem showByte_eq_showOperations (s : State) (hd : d = unpackByte b) (hf : f = decodeByte Config.divisor b) :
    s.showByte b d f = s.showOperations (.posit b) := by
  rw [hd, hf]
  rfl

theorem showEncoder_eq_showOperations (s : State) (hb : b = encodeFloat Config.infPolicy x) :
    s.showEncoder { fIn := x, pOut := b } = s.showOperations (.binary32 x) := by
  rw [hb]
  rfl

end

/-- What a row shows does not depend on the state, so its outputs can be compared with the operations' in one settled
state. -/
theorem settled_of_exec_reset {i : Instr} (hi : WellFormed i) {t : State} (h : exec i State.reset = .next t) :
    Settled t := by
  have reset : Settled State.reset := ⟨by decide, by decide, by decide, by decide⟩
  obtain ⟨t', h', settled⟩ := exec_settled hi reset
  obtain rfl : t' = t := Host.Outcome.next.inj (h'.symm.trans h)
  exact settled

/-- Every well-formed row does what the operations make of its word. -/
theorem exec_eq_showOperations (s : State) {i : Instr} (hi : WellFormed i) :
    exec i s = .next (s.showOperations (encode i)) := by
  cases i with
  | pack | unpack | fromFloat | toFloat => rfl
  | zero | nar | kP6 | kP5 | kP4 | kP3 | kP2 | kP1 | kP0 | kM1 | kM2 | kM3 | kM4 | kM5 | kM6 =>
    have settled := settled_of_exec_reset hi rfl
    exact congrArg Host.Outcome.next (showByte_eq_showOperations s settled.unpack settled.decoder)
  | kM7 => rfl
  | f32Inf | f32Nan | f32Zero | f32Subnormal | f32Normal =>
    have settled := settled_of_exec_reset hi rfl
    exact congrArg Host.Outcome.next (showEncoder_eq_showOperations s settled.encoder)

end Sys2Proof.Machine

namespace Sys2Proof.Proofs

open Sys2Proof Sys2Proof.Machine

/-- Settles O54: the row and the operations show the same for the word that carries the row. -/
theorem patternRowsAgreeWithTheOperations : Obligations.PatternRowsAgreeWithTheOperations := by
  intro s i hi
  have row := exec_eq_showOperations s hi
  refine ⟨fun b word => ?_, fun m word => ?_, fun x word => ?_⟩ <;> rw [word] at row
  · exact ⟨_, _, rfl, rfl, row⟩
  · exact ⟨_, rfl, row⟩
  · exact ⟨_, rfl, row⟩

end Sys2Proof.Proofs
end

