-- ==== Sys2Proof/Proofs/Completion.lean ====
section
/-! Every step answers a next state (R44, R120). -/

namespace Sys2Proof.Proofs

open Sys2Proof Sys2Proof.Machine

/-- Settles O6: with nothing pending a step answers the same state, and every instruction answers a next state. -/
theorem everyStepCompletes : Obligations.EveryStepCompletes := by
  intro s
  cases hp : s.pending with
  | nil => exact ⟨s, step_nil hp⟩
  | cons st rest =>
    obtain ⟨p, u, e, d, hexec, -⟩ := exec_shows (decode (Stimulus.word s st))
    exact ⟨_, (step_cons hp).trans (hexec _)⟩

end Sys2Proof.Proofs
end

