-- ==== Sys2Proof/Proofs/PackMagnitude.lean ====
section
/-! The magnitude byte that PACK builds: bit by bit (R51 to R53), and as the byte of the row of R36 whose `k` is the regime
value, with the values beyond 6 and −7 taken as these two (R57). -/

namespace Sys2Proof.Machine

open Sys2Proof

/-! ### Bit by bit (R51, R52, R53) -/

/-- Placing bits one after another: a bit of the result was there before, or one of the places puts it there. -/
theorem getLsbD_foldl_place (puts : Nat → Bool) (places : List Nat) (mag : BitVec 8) (j : Nat) :
    (places.foldl (fun mag i => if puts i then mag ||| (1#8 <<< (6 - i)) else mag) mag).getLsbD j =
      (mag.getLsbD j || places.any (fun i => puts i && decide (j = 6 - i))) := by
  induction places generalizing mag with
  | nil => simp
  | cons i places ih =>
    have place : (1#8 <<< (6 - i)).getLsbD j = decide (j = 6 - i) := by
      rw [← BitVec.twoPow_eq, BitVec.getLsbD_twoPow, decide_eq_true (by omega : 6 - i < 8), Bool.true_and]
      exact decide_eq_decide.mpr eq_comm
    rw [List.foldl_cons, ih, List.any_cons]
    cases puts i
    · simp
    · simp [place, Bool.or_assoc]

/-- The regime is placed on bits 6 to 0, the first bit of the pattern on bit 6 (R52). -/
theorem getLsbD_regimeMagnitude (k : Int) {j : Nat} (hj : j < 8) :
    (regimeMagnitude k).getLsbD j = (decide (j ≤ 6) && regimeBit k (6 - j)) := by
  rw [regimeMagnitude, getLsbD_foldl_place]
  interval_cases j <;> simp

/-- The fraction's top bit comes to the top of the `rem` bits (R39, R53). -/
theorem getLsbD_fieldFromFraction (F : BitVec 6) (rem : Nat) {j : Nat} (hj : j < 8) :
    (fieldFromFraction F rem).getLsbD j = F.getLsbD (6 - rem + j) := by
  rw [fieldFromFraction, BitVec.getLsbD_setWidth, BitVec.getLsbD_ushiftRight, decide_eq_true hj, Bool.true_and]

theorem getLsbD_packMagnitude (k : Int) (F : BitVec 6) {j : Nat} (hj : j < 8) :
    (packMagnitude k F).getLsbD j =
      (decide (j ≤ 6) && regimeBit k (6 - j) || F.getLsbD (6 - fractionBits k + j)) := by
  rw [packMagnitude, BitVec.getLsbD_or, getLsbD_regimeMagnitude k hj, getLsbD_fieldFromFraction F _ hj]

/-- Bit 7 stays clear (R52). -/
theorem byteSign_packMagnitude (k : Int) (F : BitVec 6) : byteSign (packMagnitude k F) = false := by
  rw [byteSign, getLsbD_packMagnitude k F (by decide), BitVec.getLsbD_of_ge F _ (by omega)]
  rfl

/-- Where the regime is, the fraction has no bit. -/
theorem getLsbD_packMagnitude_regime {k : Int} (F : BitVec 6) {i : Nat} (hi : i ≤ 6) (hL : i < regimeLength k) :
    (packMagnitude k F).getLsbD (6 - i) = regimeBit k i := by
  have below : 6 ≤ 6 - fractionBits k + (6 - i) := by
    unfold fractionBits
    omega
  rw [getLsbD_packMagnitude k F (by omega), BitVec.getLsbD_of_ge F _ below, Nat.sub_sub_self hi]
  simp

/-- The regime pattern ends with its terminator. -/
theorem regimeBit_eq_false {k : Int} {i : Nat} (h : regimeLength k ≤ i) : regimeBit k i = false := by
  unfold regimeLength at h
  unfold regimeBit
  split_ifs at h ⊢ <;> exact decide_eq_false (by omega)

/-- Below the regime is the fraction. -/
theorem getLsbD_packMagnitude_fraction {k : Int} (F : BitVec 6) {j : Nat} (hj : j < fractionBits k) :
    (packMagnitude k F).getLsbD j = F.getLsbD (6 - fractionBits k + j) := by
  have hend : regimeLength k ≤ 6 - j := by
    unfold fractionBits at hj
    omega
  have hj8 : j < 8 := by
    unfold fractionBits at hj
    omega
  rw [getLsbD_packMagnitude k F hj8, regimeBit_eq_false hend, Bool.and_false, Bool.false_or]

/-! ### Row by row (R36, R57) -/

/-- The regime value nearest to `k` among those that the byte tells apart (R57). -/
def clampRegime (k : Int) : Int := max (-7) (min 6 k)

theorem clampRegime_of_mem {k : Int} (low : -7 ≤ k) (high : k ≤ 6) : clampRegime k = k := by
  rw [clampRegime, min_eq_right high, max_eq_right low]

/-- What lies beyond bit 0 is cut, so a longer pattern places the same seven bits. -/
theorem packMagnitude_clampRegime (k : Int) (F : BitVec 6) : packMagnitude (clampRegime k) F = packMagnitude k F := by
  have bits : ∀ i ≤ 6, regimeBit (clampRegime k) i = regimeBit k i := by
    intro i hi
    unfold regimeBit clampRegime
    split_ifs <;> rw [decide_eq_decide] <;> omega
  have rem : fractionBits (clampRegime k) = fractionBits k := by
    unfold fractionBits regimeLength clampRegime
    split_ifs <;> omega
  apply BitVec.eq_of_getLsbD_eq
  intro j hj
  rw [getLsbD_packMagnitude _ F hj, getLsbD_packMagnitude _ F hj, bits _ (Nat.sub_le 6 j), rem]

/-- A row's own bits are its regime pattern, and what they leave free is its fraction field. -/
theorem regime_of_row :
    ∀ row ∈ magnitudeRows, clampRegime row.k = row.k ∧ regimeMagnitude row.k = row.pattern ∧ fractionBits row.k = row.rem := by
  decide

/-- PACK builds the magnitude byte of the row of its regime value, with the top of the fraction as the field. -/
theorem packMagnitude_of_row {row : MagnitudeRow} (hrow : row ∈ magnitudeRows) {k : Int} (hk : clampRegime k = row.k)
    (F : BitVec 6) : packMagnitude k F = row.magnitude (fieldFromFraction F row.rem) := by
  obtain ⟨-, pattern, rem⟩ := regime_of_row row hrow
  rw [← packMagnitude_clampRegime, hk, packMagnitude, pattern, rem, MagnitudeRow.magnitude]

theorem exists_row_of_regime (k : Int) : ∃ row ∈ magnitudeRows, row.k = clampRegime k := by
  have low : -7 ≤ clampRegime k := le_max_left _ _
  have high : clampRegime k ≤ 6 := max_le (by decide) (min_le_left _ _)
  interval_cases clampRegime k <;> decide

theorem toNat_fieldFromFraction (F : BitVec 6) (rem : Nat) : (fieldFromFraction F rem).toNat = F.toNat >>> (6 - rem) := by
  rw [fieldFromFraction, BitVec.toNat_setWidth_of_le (by decide), BitVec.toNat_ushiftRight]

/-- The field that PACK takes from the fraction fits in the row. -/
theorem toNat_fieldFromFraction_lt (F : BitVec 6) {rem : Nat} (hrem : rem ≤ 6) :
    (fieldFromFraction F rem).toNat < 2 ^ rem := by
  rw [toNat_fieldFromFraction, Nat.shiftRight_eq_div_pow, Nat.div_lt_iff_lt_mul (Nat.two_pow_pos _),
    pow_mul_pow_sub 2 hrem]
  exact F.isLt

/-- With no room for it, the fraction leaves no bit in the byte. -/
theorem fieldFromFraction_zero (F : BitVec 6) : fieldFromFraction F 0 = 0#8 := by
  apply BitVec.eq_of_toNat_eq
  have := toNat_fieldFromFraction_lt F (Nat.zero_le 6)
  simpa using this

/-- UNPACK's scan reads back from PACK's magnitude byte the regime value that was placed (R57). -/
theorem regimeValue_packMagnitude (k : Int) (F : BitVec 6) : regimeValue (packMagnitude k F) = clampRegime k := by
  obtain ⟨row, hrow, hk⟩ := exists_row_of_regime k
  have hits := MagnitudeRow.hits_magnitude hrow (toNat_fieldFromFraction_lt F (rem_le_six row hrow))
  rw [packMagnitude_of_row hrow hk.symm, regimeValue_of_hits hrow hits, hk]

theorem packMagnitude_of_six_le {k : Int} (h : 6 ≤ k) (F : BitVec 6) : packMagnitude k F = 0x7F#8 := by
  have hk : clampRegime k = rowP6.k := by rw [clampRegime, min_eq_left h]; rfl
  rw [packMagnitude_of_row (by decide) hk, MagnitudeRow.magnitude]
  exact congrArg (rowP6.pattern ||| ·) (fieldFromFraction_zero F)

theorem packMagnitude_of_le_neg_seven {k : Int} (h : k ≤ -7) (F : BitVec 6) : packMagnitude k F = 0x00#8 := by
  have hk : clampRegime k = rowM7.k := by rw [clampRegime, min_eq_right (by omega), max_eq_left h]; rfl
  rw [packMagnitude_of_row (by decide) hk, MagnitudeRow.magnitude]
  exact congrArg (rowM7.pattern ||| ·) (fieldFromFraction_zero F)

/-- The magnitude byte `0x00` is the one that reads as `k = −7`. -/
theorem packMagnitude_eq_zero_iff {k : Int} {F : BitVec 6} : packMagnitude k F = 0x00#8 ↔ k ≤ -7 := by
  constructor
  · intro h
    have hk : clampRegime k = -7 := by
      rw [← regimeValue_packMagnitude k F, h]
      rfl
    unfold clampRegime at hk
    omega
  · exact fun h => packMagnitude_of_le_neg_seven h F

/-! ### In closed form (R55) -/

theorem toNat_packMagnitude_of_row {row : MagnitudeRow} (hrow : row ∈ magnitudeRows) (F : BitVec 6) :
    (packMagnitude row.k F).toNat = row.pattern.toNat ||| F.toNat >>> (6 - row.rem) := by
  rw [packMagnitude_of_row hrow (regime_of_row row hrow).1, MagnitudeRow.magnitude, BitVec.toNat_or, toNat_fieldFromFraction]

/-- `k + 1` ones from bit 6 down, and the fraction below the terminator. -/
theorem toNat_packMagnitude_of_nonneg {k : Int} (h0 : 0 ≤ k) (h6 : k < 6) (F : BitVec 6) :
    (packMagnitude k F).toNat = ((2 ^ (k.toNat + 1) - 1) <<< (6 - k.toNat)) ||| (F.toNat >>> (k.toNat + 1)) := by
  have numbers : ∀ row ∈ magnitudeRows, 0 ≤ row.k → row.k < 6 →
      row.pattern.toNat = (2 ^ (row.k.toNat + 1) - 1) <<< (6 - row.k.toNat) ∧ 6 - row.rem = row.k.toNat + 1 := by decide
  obtain ⟨row, hrow, hk⟩ := exists_row_of_regime k
  obtain rfl : row.k = k := hk.trans (clampRegime_of_mem (by omega) h6.le)
  obtain ⟨pattern, shift⟩ := numbers row hrow h0 h6
  rw [toNat_packMagnitude_of_row hrow, pattern, shift]

/-- A single one, `−k` places below bit 6, and the fraction below it. -/
theorem toNat_packMagnitude_of_neg {k : Int} (h6 : -6 ≤ k) (h0 : k < 0) (F : BitVec 6) :
    (packMagnitude k F).toNat = (1 <<< (6 + k).toNat) ||| (F.toNat >>> (-k).toNat) := by
  have numbers : ∀ row ∈ magnitudeRows, -6 ≤ row.k → row.k < 0 →
      row.pattern.toNat = 1 <<< (6 + row.k).toNat ∧ 6 - row.rem = (-row.k).toNat := by decide
  obtain ⟨row, hrow, hk⟩ := exists_row_of_regime k
  obtain rfl : row.k = k := hk.trans (clampRegime_of_mem (by omega) (by omega))
  obtain ⟨pattern, shift⟩ := numbers row hrow h6 h0
  rw [toNat_packMagnitude_of_row hrow, pattern, shift]

end Sys2Proof.Machine
end

