-- ==== Sys2Proof/Proofs/Pack.lean ====
section
/-! PACK as an evaluation: the byte on its output port (R50 to R58). -/

namespace Sys2Proof.Machine

open Sys2Proof

section
variable {m : BitVec 8} (h7 : byteSign m = false) (sign : Bool)
include h7

/-- The sign has no effect on `0x00` and makes no other magnitude byte `0x00` (R54). -/
theorem rawByte_eq_zero_iff : rawByte sign m = 0x00#8 ↔ m = 0x00#8 := by
  constructor
  · exact fun h => of_not_not fun h0 => rawByte_ne_zero h7 h0 sign h
  · rintro rfl
    exact rawByte_zero sign

/-- With bit 7 clear under the sign, no byte is NaR (R58). -/
theorem rawByte_ne_nar_of_positive : rawByte sign m ≠ 0x80#8 := by
  by_cases h0 : m = 0x00#8
  · rw [h0, rawByte_zero]
    decide
  · exact rawByte_ne_nar h7 h0 sign

end

/-- The sign as arithmetic on the number of the magnitude byte (R7, R54). -/
theorem rawByte_eq_ofNat (sign : Bool) (m : BitVec 8) :
    rawByte sign m = BitVec.ofNat 8 (if sign then (256 - m.toNat) % 256 else m.toNat) := by
  cases sign with
  | false => simp
  | true => rfl

theorem packByte_ne_nar (p : PackInputs) : packByte p ≠ 0x80#8 :=
  rawByte_ne_nar_of_positive (byteSign_packMagnitude _ _) p.sign

theorem packByte_eq_zero_iff (p : PackInputs) : packByte p = 0x00#8 ↔ p.k.toInt ≤ -7 := by
  rw [packByte, rawByte_eq_zero_iff (byteSign_packMagnitude _ _), packMagnitude_eq_zero_iff]

/-- PACK shows its inputs and the byte of the magnitude under the sign, and leaves the rest of the state alone. -/
theorem exec_pack {sign : Bool} {k : BitVec 9} {F : BitVec 6} {p : PositByte}
    (hp : rawByte sign (packMagnitude k.toInt F) = p) (e : BitVec 1) (s : State) :
    exec (.pack sign k e F) s = .next { s with pack :=
      { inputs := { sign, k, exponent := e, fraction := F }, byte := p } } := by
  rw [← hp]
  rfl

theorem exec_fromFloat (x : Binary32) (s : State) :
    exec (.fromFloat x) s = .next (s.showEncoder { fIn := x, pOut := encodeFloat Config.infPolicy x }) := rfl

/-- A finite input is encoded as `0x00` or by PACK, neither of which is NaR (R58). -/
theorem encodeFloat_ne_nar (policy : Config.InfPolicy) {x : Binary32} (h : floatExponent x ≠ 0xFF#8) :
    encodeFloat policy x ≠ 0x80#8 := by
  rw [encodeFloat, if_neg h]
  split_ifs
  · decide
  · exact packByte_ne_nar _

end Sys2Proof.Machine

namespace Sys2Proof.Proofs

open Sys2Proof Sys2Proof.Machine

/-- Settles O17: the regime's bits, the fraction's bits and bit 7 of the magnitude byte, each a lemma of its own. -/
theorem packPlacesRegimeFractionAndSign : Obligations.PackPlacesRegimeFractionAndSign := by
  intro s sign k e F L rem hL hrem
  have length : (regimeLength k.toInt : Int) = L := by
    rw [hL, regimeLength]
    split_ifs <;> omega
  obtain rfl : fractionBits k.toInt = rem := by
    rw [hrem, ← length, fractionBits]
    omega
  refine ⟨packMagnitude k.toInt F, exec_pack rfl e s, byteSign_packMagnitude _ F, fun i hi hiL => ?_, fun j hj => ?_,
    (rawByte_eq_zero_iff (byteSign_packMagnitude _ F) sign).mpr⟩
  · exact getLsbD_packMagnitude_regime F hi (by omega)
  · exact getLsbD_packMagnitude_fraction F hj

/-- Settles O18: the closed form is the number of the magnitude byte in each of the four ranges. -/
theorem packClosedFormByRegime : Obligations.PackClosedFormByRegime := by
  intro s sign k e F mag hmag
  have number : (packMagnitude k.toInt F).toNat = mag := by
    rw [hmag]
    split_ifs with h6 h0 hneg
    · rw [packMagnitude_of_six_le h6]
      rfl
    · exact toNat_packMagnitude_of_nonneg h0 (not_le.mp h6) F
    · exact toNat_packMagnitude_of_neg hneg (not_le.mp h0) F
    · rw [packMagnitude_of_le_neg_seven (by omega)]
      rfl
  exact exec_pack (by rw [rawByte_eq_ofNat, number]) e s

/-- Settles O20: UNPACK's scan tells apart the magnitude bytes of different `k` in the range, and the ends are constant. -/
theorem packSaturatesAndFlushes : Obligations.PackSaturatesAndFlushes := by
  refine ⟨fun s k k' e F low lt high => ⟨_, _, exec_pack rfl e s, exec_pack rfl e s, fun same => ?_⟩,
    fun s sign k e F => ⟨fun h => exec_pack ?_ e s, fun h => exec_pack ?_ e s⟩⟩
  · have regime := congrArg regimeValue same
    rw [rawByte_false, rawByte_false, regimeValue_packMagnitude, regimeValue_packMagnitude,
      clampRegime_of_mem low (by omega), clampRegime_of_mem (by omega) high] at regime
    omega
  · rw [packMagnitude_of_six_le h]
    cases sign <;> rfl
  · rw [packMagnitude_of_le_neg_seven h, rawByte_zero]

/-- Settles O21: every byte of posit8_encoder's finite inputs is `0x00` or PACK's. -/
theorem packNeverReturnsNaR : Obligations.PackNeverReturnsNaR :=
  ⟨fun s x finite => ⟨_, exec_fromFloat x s, encodeFloat_ne_nar _ finite⟩,
    fun s sign k e F => ⟨_, exec_pack rfl e s, packByte_ne_nar { sign, k, exponent := e, fraction := F },
      packByte_eq_zero_iff { sign, k, exponent := e, fraction := F }⟩⟩

/-- Settles O19: the byte is the same expression in the sign, `k` and the fraction at either exponent. -/
theorem packIgnoresTheExponent : Obligations.PackIgnoresTheExponent :=
  fun s _ _ e e' _ => ⟨_, exec_pack rfl e s, exec_pack rfl e' s⟩

end Sys2Proof.Proofs
end

