-- ==== Sys2Proof/Proofs/Unpack.lean ====
section
/-! UNPACK as an evaluation: the run that its scan finds in any byte (R63), and what it reports of it (R61 to R68). -/

namespace Sys2Proof.Machine

open Sys2Proof

/-! ### The scan (R63) -/

/-- After `n` positions the scan stands at the end of the bits equal to bit 6, or has met the one that differs. -/
theorem runAfter_spec (m : BitVec 8) : ∀ n ≤ 6, 1 ≤ runAfter m n ∧ runAfter m n ≤ n + 1 ∧
    (∀ i < runAfter m n, m.getLsbD (6 - i) = m.getLsbD 6) ∧
    (runAfter m n ≤ n → m.getLsbD (6 - runAfter m n) = !m.getLsbD 6)
  | 0, _ => by simp [runAfter]
  | n + 1, hn => by
    obtain ⟨pos, le, same, stop⟩ := runAfter_spec m n (by omega)
    have position : 5 - n = 6 - (n + 1) := by omega
    rw [runAfter, position]
    split_ifs with grows
    · obtain ⟨atEnd, bit⟩ := grows
      refine ⟨by omega, by omega, fun i hi => ?_, fun h => by omega⟩
      rcases Nat.lt_succ_iff_lt_or_eq.mp hi with before | rfl
      · exact same i before
      · rw [atEnd, bit]
    · refine ⟨pos, by omega, same, fun h => ?_⟩
      by_cases atEnd : runAfter m n = n + 1
      · rw [atEnd]
        exact Bool.eq_not.mpr fun bit => grows ⟨atEnd, bit⟩
      · exact stop (by omega)

theorem isRun_regimeRun (m : BitVec 8) : IsRun m (regimeRun m) := by
  have spec := runAfter_spec m 6 le_rfl
  rw [← regimeRun_eq_runAfter] at spec
  obtain ⟨pos, le, same, stop⟩ := spec
  exact { pos, le, same, stop }

/-- A run over all seven positions makes the magnitude byte: seven ones or seven zeros. -/
theorem IsRun.eq_seven_iff {m : BitVec 8} {r : Nat} (h : IsRun m r) (h7 : m.toNat < 128) :
    r = 7 ↔ m = 0x7F#8 ∨ m = 0x00#8 := by
  constructor
  · rintro rfl
    have top : m.getLsbD 7 = false := Nat.testBit_lt_two_pow h7
    have bits : ∀ j < 8, m.getLsbD j = (decide (j < 7) && m.getLsbD 6) := by
      intro j hj
      rcases Nat.lt_succ_iff_lt_or_eq.mp hj with low | rfl
      · rw [decide_eq_true low, Bool.true_and, ← h.same (6 - j) (by omega), Nat.sub_sub_self (by omega)]
      · rw [top]
        rfl
    cases d : m.getLsbD 6 with
    | true =>
      have ones : ∀ j < 8, (0x7F#8).getLsbD j = (decide (j < 7) && true) := by decide
      exact .inl (BitVec.eq_of_getLsbD_eq fun j hj => by rw [bits j hj, d, ones j hj])
    | false => exact .inr (BitVec.eq_of_getLsbD_eq fun j hj => by rw [bits j hj, d, Bool.and_false, BitVec.getLsbD_zero])
  · rintro (rfl | rfl) <;> exact h.regimeRun_eq.symm.trans (by decide)

/-! ### What is reported of the run (R64, R65) -/

theorem fractionFromField_of_run (m : BitVec 8) (r : Nat) : fractionFromField m (fractionBitsOfRun r) =
    if r ≤ 5 then BitVec.ofNat 6 (m.toNat % 2 ^ (6 - r) * 2 ^ r) else 0#6 := by
  have rem : fractionBitsOfRun r = 6 - r := by
    rw [fractionBitsOfRun]
    split_ifs <;> omega
  rw [rem, fractionFromField_eq_ofNat m (Nat.sub_le 6 r)]
  split_ifs with h
  · rw [Nat.sub_sub_self (by omega)]
  · rw [Nat.sub_eq_zero_of_le (by omega : 6 ≤ r), pow_zero, Nat.mod_one, Nat.zero_mul]

/-- The regime value fits in the 4 bits of UNPACK's port (R64). -/
theorem toInt_regimeValue (m : BitVec 8) : (BitVec.ofInt 4 (regimeValue m)).toInt = regimeValue m := by
  have run := isRun_regimeRun m
  have bounds : -8 ≤ regimeValue m ∧ regimeValue m < 8 := by
    have := run.pos
    have := run.le
    unfold regimeValue
    split_ifs <;> omega
  rw [BitVec.toInt_ofInt]
  exact Int.bmod_eq_of_le bounds.1 bounds.2

/-- UNPACK of any byte but NaR (R62 to R66). -/
theorem unpackByte_of_ne_nar {b : PositByte} (h : b ≠ 0x80#8) : unpackByte b =
    { sign := byteSign b
      k := BitVec.ofInt 4 (regimeValue (magnitudeOf b))
      exponent := 0#1
      fraction := fractionFromField (magnitudeOf b) (fractionBitsOfRun (regimeRun (magnitudeOf b))) } :=
  if_neg h

/-- UNPACK shows its byte and the byte's fields, and leaves the rest of the state alone. -/
theorem exec_unpack_of_eq {b : PositByte} {f : DecodedFields} (hf : unpackByte b = f) (s : State) :
    exec (.unpack b) s = .next { s with unpack := { byte := b, fields := f } } := by
  rw [exec_unpack, hf]
  rfl

end Sys2Proof.Machine

namespace Sys2Proof.Proofs

open Sys2Proof Sys2Proof.Machine

/-- Settles O22: the run is the one that the scan finds, and the rest is read from it. -/
theorem unpackReadsSignRunAndFraction : Obligations.UnpackReadsSignRunAndFraction := by
  intro s b m d hb hm hd
  obtain rfl : m = magnitudeOf b := hm
  subst hd
  have run := isRun_regimeRun (magnitudeOf b)
  have seven_bits := toNat_magnitudeOf_lt hb
  refine ⟨Nat.le_of_lt_succ seven_bits, regimeRun (magnitudeOf b), BitVec.ofInt 4 (regimeValue (magnitudeOf b)), run.pos, run.le, run.same, run.stop,
    run.eq_seven_iff seven_bits, exec_unpack_of_eq ?_ s⟩
  rw [unpackByte_of_ne_nar hb, fractionFromField_of_run]
  rfl

/-- Settles O23: a run with these ends is the one that the scan finds, and 4 bits hold its value. -/
theorem unpackRegimeValueOfTheRun : Obligations.UnpackRegimeValueOfTheRun := by
  intro s b m d r hb hm hd pos le same stop
  obtain rfl : m = magnitudeOf b := hm
  subst hd
  have run : IsRun (magnitudeOf b) r := { pos, le, same, stop }
  have value : (unpackByte b).k.toInt = if (magnitudeOf b).getLsbD 6 then (r : Int) - 1 else -(r : Int) := by
    rw [unpackByte_of_ne_nar hb, toInt_regimeValue, regimeValue, run.regimeRun_eq]
  refine ⟨unpackByte b, exec_unpack_of_eq rfl s, value, fun ones => ?_, fun zeros => ?_⟩
  · rw [value, if_pos ones]
    omega
  · rw [value, if_neg (Bool.eq_false_iff.mp zeros)]
    omega

/-- Settles O24: NaR has the tuple by UNPACK's first test, and `0x40` by a run of a single one with no fraction. -/
theorem unpackOfNaRIsTheTupleOfOne : Obligations.UnpackOfNaRIsTheTupleOfOne :=
  fun s => ⟨_, rfl, exec_unpack_of_eq (if_pos rfl) s, exec_unpack_of_eq (by decide) s⟩

/-- Settles O25: the run of seven zeros reads as −7, which PACK flushes to `0x00`. -/
theorem unpackOfZeroReportsMinusSeven : Obligations.UnpackOfZeroReportsMinusSeven := by
  refine fun s => ⟨exec_unpack_of_eq (by decide) s, exec_pack ?_ _ s⟩
  rw [packMagnitude_of_le_neg_seven (by decide), rawByte_zero]

/-- Settles O52: each row's meaning writes these ports out, and the float of NAR is a NaN whatever its free bits are. -/
theorem reservedByteRowsComplete : Obligations.ReservedByteRowsComplete :=
  fun _ => ⟨rfl, ⟨nanOut, isNaN_nanOut, rfl⟩, rfl⟩

end Sys2Proof.Proofs
end

