-- ==== Sys2Proof/Proofs/FloatMagnitude.lean ====
section
/-! The magnitude of a finite float (R41, R74), its binary exponent and its truncated significand (R75, R76), over exact
rationals. -/

namespace Sys2Proof.Machine

open Sys2Proof

theorem isNormal_iff (x : Binary32) : isNormal x = true ↔ floatExponent x ≠ 0x00#8 ∧ floatExponent x ≠ 0xFF#8 := by
  simp [isNormal]

theorem isSubnormal_iff (x : Binary32) :
    isSubnormal x = true ↔ floatExponent x = 0x00#8 ∧ floatSignificand x ≠ 0#23 := by
  simp [isSubnormal]

/-! ### Sign and magnitude (R41, R74) -/

/-- What a finite float denotes with its sign bit cleared (R41). -/
def floatMagnitude (x : Binary32) : ℚ :=
  if floatExponent x = 0x00#8 then (floatSignificand x).toNat * (2 : ℚ) ^ (-149 : ℤ)
  else (1 + (floatSignificand x).toNat / 2 ^ 23) * (2 : ℚ) ^ ((floatExponent x).toNat - 127 : ℤ)

theorem floatMagnitude_nonneg (x : Binary32) : 0 ≤ floatMagnitude x := by
  unfold floatMagnitude
  split_ifs <;> positivity

theorem floatValue_of_finite {x : Binary32} (finite : floatExponent x ≠ 0xFF#8) :
    floatValue x = some (signFactor (floatSign x) * floatMagnitude x) := by
  rw [floatValue, if_neg finite, floatMagnitude]
  split_ifs <;> rw [mul_assoc]

/-- A float with a value is finite, and its value is its magnitude under its sign. -/
theorem finite_of_floatValue {x : Binary32} {v : ℚ} (h : floatValue x = some v) :
    floatExponent x ≠ 0xFF#8 ∧ v = signFactor (floatSign x) * floatMagnitude x := by
  have finite : floatExponent x ≠ 0xFF#8 := fun top => by simp [floatValue, top] at h
  rw [floatValue_of_finite finite] at h
  exact ⟨finite, (Option.some.inj h).symm⟩

theorem abs_signFactor_mul (sign : Bool) {a : ℚ} (ha : 0 ≤ a) : |signFactor sign * a| = a := by
  cases sign <;> simp [signFactor, abs_of_nonneg ha]

theorem signFactor_mul_neg_iff (sign : Bool) {a : ℚ} (ha : 0 < a) : signFactor sign * a < 0 ↔ sign = true := by
  cases sign <;> simp [signFactor, ha, ha.le]

theorem signFactor_mul_mul_pos (sign : Bool) {a b : ℚ} (ha : 0 < a) (hb : 0 < b) :
    0 < signFactor sign * a * (signFactor sign * b) := by
  cases sign <;> simp [signFactor, ha, hb]

theorem floatMagnitude_eq_abs {x : Binary32} {v : ℚ} (h : floatValue x = some v) : floatMagnitude x = |v| := by
  obtain ⟨-, rfl⟩ := finite_of_floatValue h
  exact (abs_signFactor_mul _ (floatMagnitude_nonneg x)).symm

/-- The sign bit of a float other than ±0 says whether it is below 0 (R74). -/
theorem floatSign_eq_decide {x : Binary32} {v : ℚ} (h : floatValue x = some v) (nonzero : v ≠ 0) :
    floatSign x = decide (v < 0) := by
  have positive : 0 < floatMagnitude x := floatMagnitude_eq_abs h ▸ abs_pos.mpr nonzero
  obtain ⟨-, rfl⟩ := finite_of_floatValue h
  rw [Bool.eq_iff_iff, decide_eq_true_iff, signFactor_mul_neg_iff _ positive]

/-- Clearing bit 31 gives the absolute value (R74). -/
theorem floatValue_and_magnitudeMask {x : Binary32} {v : ℚ} (h : floatValue x = some v) :
    floatValue (x &&& 0x7FFFFFFF#32) = some |v| := by
  obtain ⟨finite, -⟩ := finite_of_floatValue h
  rw [and_magnitudeMask, floatValue_of_finite (by rwa [floatExponent_floatWord]), ← floatMagnitude_eq_abs h]
  simp [floatMagnitude, signFactor]

/-! ### The binary exponent (R75) -/

/-- `floor(log2(a))` is the one `e` with `2^e ≤ a < 2^(e+1)`. -/
theorem log_eq_of_zpow_le {a : ℚ} {e : ℤ} (low : (2 : ℚ) ^ e ≤ a) (high : a < (2 : ℚ) ^ (e + 1)) : Int.log 2 a = e := by
  have positive : 0 < a := (zpow_pos two_pos e).trans_le low
  have le : e ≤ Int.log 2 a := (Int.zpow_le_iff_le_log one_lt_two positive).mp (by exact_mod_cast low)
  have lt : Int.log 2 a < e + 1 := (Int.lt_zpow_iff_log_lt one_lt_two positive).mp (by exact_mod_cast high)
  omega

/-- A number from 1 up to 2, scaled by a power of two, has that power's exponent. -/
theorem log_mul_zpow {f : ℚ} (low : 1 ≤ f) (high : f < 2) (e : ℤ) : Int.log 2 (f * (2 : ℚ) ^ e) = e := by
  have scale : (0 : ℚ) < 2 ^ e := zpow_pos two_pos e
  refine log_eq_of_zpow_le (le_mul_of_one_le_left scale.le low) ?_
  rw [zpow_add_one₀ two_ne_zero, mul_comm]
  exact mul_lt_mul_of_pos_left high scale

theorem floatMagnitude_of_normal {x : Binary32} (normal : floatExponent x ≠ 0x00#8) : floatMagnitude x =
    (1 + (floatSignificand x).toNat / 2 ^ 23) * (2 : ℚ) ^ ((floatExponent x).toNat - 127 : ℤ) :=
  if_neg normal

/-- The exponent of a normal input is `E − 127` (R75). -/
theorem log_floatMagnitude_of_normal {x : Binary32} (normal : floatExponent x ≠ 0x00#8) :
    Int.log 2 (floatMagnitude x) = (floatExponent x).toNat - 127 := by
  have significand : ((floatSignificand x).toNat : ℚ) / 2 ^ 23 < 1 := by
    rw [div_lt_one (by positivity)]
    exact_mod_cast (floatSignificand x).isLt
  rw [floatMagnitude_of_normal normal]
  exact log_mul_zpow (by simp; positivity) (by linarith) _

/-- The exponent of a subnormal input is `−149 + floor(log2(M))` (R75). -/
theorem log_floatMagnitude_of_subnormal {x : Binary32} (subnormal : floatExponent x = 0x00#8)
    (nonzero : floatSignificand x ≠ 0#23) :
    Int.log 2 (floatMagnitude x) = -149 + (Nat.log2 (floatSignificand x).toNat : ℤ) := by
  have hM : (floatSignificand x).toNat ≠ 0 := fun h => nonzero (BitVec.eq_of_toNat_eq h)
  rw [floatMagnitude, if_pos subnormal]
  generalize (floatSignificand x).toNat = M at hM
  have scale : (0 : ℚ) < 2 ^ (-149 : ℤ) := zpow_pos two_pos _
  have low : (2 : ℚ) ^ Nat.log2 M ≤ M := by exact_mod_cast Nat.log2_self_le hM
  have high : (M : ℚ) < 2 ^ (Nat.log2 M + 1) := by exact_mod_cast Nat.lt_log2_self
  have split (t : ℕ) : (2 : ℚ) ^ (-149 + (t : ℤ)) = 2 ^ t * 2 ^ (-149 : ℤ) := by
    rw [zpow_add₀ two_ne_zero, zpow_natCast, mul_comm]
  apply log_eq_of_zpow_le
  · rw [split]
    exact mul_le_mul_of_nonneg_right low scale.le
  · rw [add_assoc, ← Nat.cast_succ, split]
    exact mul_lt_mul_of_pos_right high scale

/-- A subnormal is below `2^−126`, far under the range of the bytes (R83). -/
theorem log_floatMagnitude_of_bottom {x : Binary32} (positive : 0 < floatMagnitude x)
    (bottom : floatExponent x = 0x00#8) : -149 ≤ Int.log 2 (floatMagnitude x) ∧ Int.log 2 (floatMagnitude x) ≤ -127 := by
  have nonzero : floatSignificand x ≠ 0#23 := fun zero => by simp [floatMagnitude, bottom, zero] at positive
  have small : Nat.log2 (floatSignificand x).toNat < 23 :=
    (Nat.log2_lt fun h => nonzero (BitVec.eq_of_toNat_eq h)).mpr (floatSignificand x).isLt
  rw [log_floatMagnitude_of_subnormal bottom nonzero]
  omega

/-- The exponents of finite inputs (R77). -/
theorem log_floatMagnitude_mem {x : Binary32} (finite : floatExponent x ≠ 0xFF#8) (positive : 0 < floatMagnitude x) :
    -149 ≤ Int.log 2 (floatMagnitude x) ∧ Int.log 2 (floatMagnitude x) ≤ 127 := by
  by_cases bottom : floatExponent x = 0x00#8
  · have := log_floatMagnitude_of_bottom positive bottom
    omega
  · have notTop : (floatExponent x).toNat ≠ 255 := fun h => finite (BitVec.eq_of_toNat_eq h)
    have := (floatExponent x).isLt
    rw [log_floatMagnitude_of_normal bottom]
    omega

/-! ### The truncated significand (R76, R79) -/

/-- Keeping the top `rem` bits of a significand is truncation: `floor(M / 2^23 × 2^rem)`. -/
theorem floor_significand (M : ℕ) {rem : ℕ} (hrem : rem ≤ 23) :
    ⌊(M : ℚ) / 2 ^ 23 * 2 ^ rem⌋ = ((M / 2 ^ (23 - rem) : ℕ) : ℤ) := by
  have cut : (M : ℚ) / 2 ^ 23 * 2 ^ rem = (M : ℚ) / ((2 ^ (23 - rem) : ℕ) : ℚ) := by
    rw [← pow_sub_mul_pow (2 : ℚ) hrem]
    push_cast
    field_simp
  rw [cut, Rat.floor_natCast_div_natCast, Int.natCast_ediv]

theorem truncatedSignificand_le (M : ℕ) {rem : ℕ} (hrem : rem ≤ 23) :
    ((M / 2 ^ (23 - rem) : ℕ) : ℚ) / 2 ^ rem ≤ (M : ℚ) / 2 ^ 23 := by
  have floor_le := Int.floor_le ((M : ℚ) / 2 ^ 23 * 2 ^ rem)
  rwa [floor_significand M hrem, Int.cast_natCast, ← div_le_iff₀ (by positivity)] at floor_le

/-- Of a normal input, the bits of its significand are those of its magnitude beyond the leading one (R76). -/
theorem floor_fraction_of_normal {x : Binary32} (normal : floatExponent x ≠ 0x00#8) {rem : ℕ} (hrem : rem ≤ 23) :
    ⌊(floatMagnitude x / (2 : ℚ) ^ ((floatExponent x).toNat - 127 : ℤ) - 1) * 2 ^ rem⌋ =
      (((floatSignificand x).toNat / 2 ^ (23 - rem) : ℕ) : ℤ) := by
  rw [floatMagnitude_of_normal normal, mul_div_cancel_right₀ _ (zpow_ne_zero _ two_ne_zero), add_sub_cancel_left,
    floor_significand _ hrem]

/-- The fraction of any number, cut to 6 bits (R76). -/
theorem floor_fraction_mem {a : ℚ} {e : ℤ} (low : (2 : ℚ) ^ e ≤ a) (high : a < (2 : ℚ) ^ (e + 1)) :
    0 ≤ ⌊(a / (2 : ℚ) ^ e - 1) * 64⌋ ∧ ⌊(a / (2 : ℚ) ^ e - 1) * 64⌋ ≤ 63 := by
  have scale : (0 : ℚ) < 2 ^ e := zpow_pos two_pos e
  have one_le : 1 ≤ a / (2 : ℚ) ^ e := (one_le_div scale).mpr low
  have lt_two : a / (2 : ℚ) ^ e < 2 := by
    rwa [div_lt_iff₀ scale, mul_comm, ← zpow_add_one₀ two_ne_zero]
  constructor
  · exact Int.floor_nonneg.mpr (by linarith)
  · exact Int.lt_add_one_iff.mp (Int.floor_lt.mpr (by push_cast; linarith))

theorem toNat_fractionOfSignificand (M : BitVec 23) : (fractionOfSignificand M).toNat = M.toNat / 2 ^ 17 := by
  have := M.isLt
  rw [fractionOfSignificand, BitVec.extractLsb'_toNat, Nat.shiftRight_eq_div_pow]
  omega

/-- The document's 6-bit fraction of a normal input is the one that the bit-exact form takes (R76). -/
theorem floor_fraction64_of_normal {x : Binary32} (normal : floatExponent x ≠ 0x00#8) :
    ⌊(floatMagnitude x / (2 : ℚ) ^ ((floatExponent x).toNat - 127 : ℤ) - 1) * 64⌋ =
      ((fractionOfSignificand (floatSignificand x)).toNat : ℤ) := by
  rw [toNat_fractionOfSignificand, show (64 : ℚ) = 2 ^ 6 by norm_num]
  exact floor_fraction_of_normal normal (by decide)

/-- Bits 22 to 17 of a float are the top of its significand (R42). -/
theorem fractionOfSignificand_floatSignificand (x : Binary32) :
    fractionOfSignificand (floatSignificand x) = x.extractLsb 22 17 := by
  apply BitVec.eq_of_getLsbD_eq
  intro i hi
  have inside : 17 + i < 23 := by omega
  rw [fractionOfSignificand, BitVec.getLsbD_extractLsb', getLsbD_floatSignificand, decide_eq_true inside, Bool.true_and]
  exact (BitVec.getLsbD_extractLsb' ..).symm

/-- The two truncations in series are one (R79): PACK's field is the top `rem` bits of the significand. -/
theorem toNat_fieldFromFraction_of_significand (M : BitVec 23) {rem : ℕ} (hrem : rem ≤ 6) :
    (fieldFromFraction (fractionOfSignificand M) rem).toNat = M.toNat / 2 ^ (23 - rem) := by
  rw [toNat_fieldFromFraction, toNat_fractionOfSignificand, Nat.shiftRight_eq_div_pow, Nat.div_div_eq_div_mul, ← pow_add]
  congr 2
  omega

end Sys2Proof.Machine
end

