-- ==== Sys2Proof/Proofs/Encoder.lean ====
section
/-! FROMFLOAT as an evaluation (R70 to R84): the byte of a finite input is PACK's on the exponent `E − 127`, zeros and
subnormals included, and what that byte denotes. -/

namespace Sys2Proof.Machine

open Sys2Proof

/-! ### The byte -/

/-- FROMFLOAT shows its input and the input's byte, and leaves the rest of the state alone. -/
theorem exec_fromFloat_of_eq {x : Binary32} {p : PositByte} (hp : encodeFloat Config.infPolicy x = p) (s : State) :
    exec (.fromFloat x) s = .next { s with encoder := { fIn := x, pOut := p } } := by
  rw [exec_fromFloat, hp]
  rfl

/-- The decided policy for infinities makes one case of them and the NaNs (R71, R72). -/
theorem encodeFloat_of_top {x : Binary32} (top : floatExponent x = 0xFF#8) : encodeFloat Config.infPolicy x = 0x80#8 := by
  rw [encodeFloat, if_pos top]
  exact ite_self _

theorem encodeFloat_of_bottom (policy : Config.InfPolicy) {x : Binary32} (bottom : floatExponent x = 0x00#8) :
    encodeFloat policy x = 0x00#8 := by
  have notTop : floatExponent x ≠ 0xFF#8 := by rw [bottom]; decide
  rw [encodeFloat, if_neg notTop, if_pos bottom]

theorem regimeOfExponent_eq_ofInt (e : BitVec 8) : regimeOfExponent e = BitVec.ofInt 9 ((e.toNat : ℤ) - 127) := by
  revert e
  decide

/-- The exponent of every finite input fits PACK's 9-bit port (R77). -/
theorem toInt_ofInt_regime {k : ℤ} (low : -256 ≤ k) (high : k < 256) : (BitVec.ofInt 9 k).toInt = k :=
  BitVec.toInt_ofInt_eq_self (by decide) low high

theorem toInt_regimeOfExponent (e : BitVec 8) : (regimeOfExponent e).toInt = (e.toNat : ℤ) - 127 := by
  have := e.isLt
  rw [regimeOfExponent_eq_ofInt, toInt_ofInt_regime (by omega) (by omega)]

/-- One form for every finite input: with exponent 0, PACK's regime value is −127, which it flushes (R83). -/
theorem encodeFloat_of_finite (policy : Config.InfPolicy) {x : Binary32} (finite : floatExponent x ≠ 0xFF#8) :
    encodeFloat policy x = rawByte (floatSign x)
      (packMagnitude ((floatExponent x).toNat - 127) (fractionOfSignificand (floatSignificand x))) := by
  by_cases bottom : floatExponent x = 0x00#8
  · rw [encodeFloat_of_bottom policy bottom, bottom, packMagnitude_of_le_neg_seven (by decide), rawByte_zero]
  · rw [encodeFloat, if_neg finite, if_neg bottom, packByte, packInputsOfFloat, toInt_regimeOfExponent]

/-- The document's form (R80): PACK of the exponent and of the fraction of the magnitude. A subnormal has another exponent
and fraction than the bit-exact form gives PACK, but both are flushed (R83). -/
theorem encodeFloat_of_log (policy : Config.InfPolicy) {x : Binary32} (finite : floatExponent x ≠ 0xFF#8)
    (positive : 0 < floatMagnitude x) {e F : ℤ} (he : Int.log 2 (floatMagnitude x) = e)
    (hF : F = ⌊(floatMagnitude x / (2 : ℚ) ^ e - 1) * 64⌋) :
    encodeFloat policy x = rawByte (floatSign x) (packMagnitude e (BitVec.ofInt 6 F)) := by
  by_cases bottom : floatExponent x = 0x00#8
  · obtain ⟨-, small⟩ := log_floatMagnitude_of_bottom positive bottom
    rw [encodeFloat_of_bottom policy bottom, packMagnitude_of_le_neg_seven (by omega), rawByte_zero]
  · have fraction : F = (fractionOfSignificand (floatSignificand x)).toNat := by
      rw [hF, ← he, log_floatMagnitude_of_normal bottom, floor_fraction64_of_normal bottom]
    rw [encodeFloat_of_finite policy finite, ← he, log_floatMagnitude_of_normal bottom, fraction, BitVec.ofInt_natCast,
      BitVec.ofNat_toNat, BitVec.setWidth_eq]

/-! ### The range table (R81) -/

/-- The byte of a row as the table writes it: the row's own bits, or-ed with the top of the fraction. -/
theorem packMagnitude_of_row_eq_ofNat {row : MagnitudeRow} (hrow : row ∈ magnitudeRows) (F : BitVec 6) :
    packMagnitude row.k F = BitVec.ofNat 8 (row.pattern.toNat ||| F.toNat / 2 ^ (6 - row.rem)) := by
  rw [← Nat.shiftRight_eq_div_pow, ← toNat_packMagnitude_of_row hrow, BitVec.ofNat_toNat, BitVec.setWidth_eq]

theorem eq_ofNat_ite {c : Prop} [Decidable c] {m : BitVec 8} {i j : ℕ} (hi : c → m = BitVec.ofNat 8 i)
    (hj : ¬c → m = BitVec.ofNat 8 j) : m = BitVec.ofNat 8 (if c then i else j) := by
  split
  · exact hi ‹c›
  · exact hj ‹¬c›

/-! ### The number it denotes (R38) -/

/-- Saturation lowers the exponent (R57, R84). -/
theorem clampRegime_le {k : ℤ} (low : -7 ≤ k) : clampRegime k ≤ k :=
  max_le low (min_le_right _ _)

theorem byteValue_zero : byteValue 0x00#8 = some 0 := rfl

theorem byteValue_of_flushed (sign : Bool) {k : ℤ} (hk : k ≤ -7) (F : BitVec 6) :
    byteValue (rawByte sign (packMagnitude k F)) = some 0 := by
  rw [packMagnitude_of_le_neg_seven hk, rawByte_zero, byteValue_zero]

/-- Above the flush the byte denotes the row's number, with the field that the row has room for. -/
theorem byteValue_packMagnitude (sign : Bool) {k : ℤ} (hk : -7 < k) (M : BitVec 23) :
    ∃ row ∈ magnitudeRows, row.k = clampRegime k ∧
      byteValue (rawByte sign (packMagnitude k (fractionOfSignificand M))) =
        some (signFactor sign * (2 : ℚ) ^ row.k * (1 + ((M.toNat / 2 ^ (23 - row.rem) : ℕ) : ℚ) / 2 ^ row.rem)) := by
  obtain ⟨row, hrow, hrowk⟩ := exists_row_of_regime k
  have hvalued : row ≠ rowM7 := by
    rintro rfl
    have : (-7 : ℤ) = clampRegime k := hrowk
    unfold clampRegime at this
    omega
  have hrem := rem_le_six row hrow
  refine ⟨row, hrow, hrowk, ?_⟩
  rw [packMagnitude_of_row hrow hrowk.symm, byteValue_of_row hrow (toNat_fieldFromFraction_lt _ hrem) sign hvalued,
    toNat_fieldFromFraction_of_significand M hrem]

end Sys2Proof.Machine

namespace Sys2Proof.Proofs

open Sys2Proof Sys2Proof.Machine

/-- Settles O29: FROMFLOAT's first test is of the exponent alone, under the decided policy for infinities (R80). -/
theorem nonFiniteInputsGiveNaR : Obligations.NonFiniteInputsGiveNaR :=
  fun s _ top => exec_fromFloat_of_eq (encodeFloat_of_top top) s

/-- Settles O30: FROMFLOAT's second test is of the exponent alone, zero or subnormal (R80). -/
theorem zerosAndSubnormalsGiveZero : Obligations.ZerosAndSubnormalsGiveZero :=
  fun s _ bottom => exec_fromFloat_of_eq (encodeFloat_of_bottom _ bottom) s

/-- Settles O31: each line of the table is the row of R36 with `k = E − 127`; its ends are PACK's flush and saturation. -/
theorem encoderRangeTable : Obligations.EncoderRangeTable := by
  intro s x E F mag hE hF _ finite hmag
  have notTop : floatExponent x ≠ 0xFF#8 := by
    intro top
    have : E = 255 := hE.trans (congrArg BitVec.toNat top)
    omega
  have line (row : MagnitudeRow) (hrow : row ∈ magnitudeRows) (hk : E = (row.k + 127).toNat) :
      packMagnitude ((E : ℤ) - 127) (x.extractLsb 22 17) =
        BitVec.ofNat 8 (row.pattern.toNat ||| F / 2 ^ (6 - row.rem)) := by
    have biased : ∀ row ∈ magnitudeRows, ((row.k + 127).toNat : ℤ) - 127 = row.k := by decide
    rw [hk, biased row hrow, packMagnitude_of_row_eq_ofNat hrow, hF]
  have bare (row : MagnitudeRow) (hrow : row ∈ magnitudeRows) (hrem : row.rem = 0) (hk : E = (row.k + 127).toNat) :
      packMagnitude ((E : ℤ) - 127) (x.extractLsb 22 17) = BitVec.ofNat 8 row.pattern.toNat := by
    have small : F < 2 ^ (6 - 0) := hF ▸ (x.extractLsb 22 17).isLt
    rw [line row hrow hk, hrem, Nat.div_eq_of_lt small, Nat.or_zero]
  have magnitude : packMagnitude ((E : ℤ) - 127) (x.extractLsb 22 17) = mag := by
    rw [hmag]
    refine eq_ofNat_ite (fun flushed => packMagnitude_of_le_neg_seven (by omega) _) fun _ => ?_
    refine eq_ofNat_ite (bare rowM6 (by decide) rfl) fun _ => ?_
    refine eq_ofNat_ite (line rowM5 (by decide)) fun _ => ?_
    refine eq_ofNat_ite (line rowM4 (by decide)) fun _ => ?_
    refine eq_ofNat_ite (line rowM3 (by decide)) fun _ => ?_
    refine eq_ofNat_ite (line rowM2 (by decide)) fun _ => ?_
    refine eq_ofNat_ite (line rowM1 (by decide)) fun _ => ?_
    refine eq_ofNat_ite (line rowP0 (by decide)) fun _ => ?_
    refine eq_ofNat_ite (line rowP1 (by decide)) fun _ => ?_
    refine eq_ofNat_ite (line rowP2 (by decide)) fun _ => ?_
    refine eq_ofNat_ite (line rowP3 (by decide)) fun _ => ?_
    refine eq_ofNat_ite (line rowP4 (by decide)) fun _ => ?_
    refine eq_ofNat_ite (bare rowP5 (by decide) rfl) fun _ => ?_
    exact packMagnitude_of_six_le (by omega) _
  rw [← magnitude, hE, ← fractionOfSignificand_floatSignificand]
  exact exec_fromFloat_of_eq (encodeFloat_of_finite _ notTop) s

/-- Settles O32: the integer `e` is the logarithm of the magnitude, and PACK makes one byte of what the two forms give it. -/
theorem encoderIsTheDocumentsArithmetic : Obligations.EncoderIsTheDocumentsArithmetic := by
  intro s x v e F hv nonzero low high hF
  obtain ⟨finite, -⟩ := finite_of_floatValue hv
  have hsign := floatSign_eq_decide hv nonzero
  have positive : 0 < floatMagnitude x := floatMagnitude_eq_abs hv ▸ abs_pos.mpr nonzero
  have sixBits := floor_fraction_mem low high
  have absolute := floatValue_and_magnitudeMask hv
  rw [← floatMagnitude_eq_abs hv] at low high hF sixBits absolute ⊢
  have log := log_eq_of_zpow_le low high
  have range := log_floatMagnitude_mem finite positive
  rw [log] at range
  rw [← hF] at sixBits
  refine ⟨hsign, absolute, fun normal => ?_, fun subnormal => ?_, range.1, range.2, sixBits.1, sixBits.2, _,
    exec_pack rfl _ s, exec_fromFloat_of_eq ?_ s⟩
  · obtain ⟨notBottom, -⟩ := (isNormal_iff x).mp normal
    rw [log_floatMagnitude_of_normal notBottom] at log
    refine ⟨log.symm, ?_⟩
    rw [hF, ← log, ← fractionOfSignificand_floatSignificand, floor_fraction64_of_normal notBottom]
  · obtain ⟨bottom, fraction⟩ := (isSubnormal_iff x).mp subnormal
    exact log.symm.trans (log_floatMagnitude_of_subnormal bottom fraction)
  · rw [toInt_ofInt_regime (by omega) (by omega), ← hsign]
    exact encodeFloat_of_log _ finite positive log hF

/-- Settles O33: in this range the input is normal, its row is that of `k`, and the row's field is the one truncation. -/
theorem encoderTruncatesOnce : Obligations.EncoderTruncatesOnce := by
  intro s x v k rem hv hk6 hk5 low high hrem
  have rem_of_row : ∀ row ∈ magnitudeRows, -6 ≤ row.k → row.k ≤ 5 →
      (if 0 ≤ row.k then 5 - row.k else 6 + row.k).toNat = row.rem := by decide
  obtain ⟨finite, -⟩ := finite_of_floatValue hv
  have magnitude := floatMagnitude_eq_abs hv
  have positive : 0 < |v| := (zpow_pos two_pos k).trans_le low
  rw [← floatSign_eq_decide hv (abs_pos.mp positive)]
  rw [← magnitude] at low high positive ⊢
  have log := log_eq_of_zpow_le low high
  have notBottom : floatExponent x ≠ 0x00#8 := by
    intro bottom
    have := log_floatMagnitude_of_bottom positive bottom
    omega
  rw [log_floatMagnitude_of_normal notBottom] at log
  obtain ⟨row, hrow, hrowk, value⟩ := byteValue_packMagnitude (floatSign x) (k := k) (by omega) (floatSignificand x)
  rw [clampRegime_of_mem (by omega) (by omega)] at hrowk
  subst hrowk
  obtain rfl : rem = row.rem := hrem.trans (rem_of_row row hrow hk6 hk5)
  refine ⟨_, exec_fromFloat_of_eq (encodeFloat_of_finite _ finite) s, ?_⟩
  have hrem6 := rem_le_six row hrow
  rw [log, value, ← log, floor_fraction_of_normal notBottom (by omega), Int.cast_natCast]

/-- Settles O34: the byte's number is 0, or a power of two and a fraction neither of which exceeds the input's. -/
theorem encoderNeverGrowsTheMagnitude : Obligations.EncoderNeverGrowsTheMagnitude := by
  intro s x v hv
  obtain ⟨finite, rfl⟩ := finite_of_floatValue hv
  have byte := encodeFloat_of_finite Config.infPolicy finite
  rcases le_or_gt ((floatExponent x).toNat - 127 : ℤ) (-7) with flushed | kept
  · refine ⟨_, 0, exec_fromFloat_of_eq byte s, byteValue_of_flushed _ flushed _, ?_, .inl rfl⟩
    rw [abs_zero]
    exact abs_nonneg _
  · obtain ⟨row, hrow, hrowk, value⟩ := byteValue_packMagnitude (floatSign x) kept (floatSignificand x)
    have notBottom : floatExponent x ≠ 0x00#8 := by
      intro bottom
      rw [bottom] at kept
      exact absurd kept (by decide)
    have magnitude := floatMagnitude_of_normal notBottom
    have positive : 0 < floatMagnitude x := by rw [magnitude]; positivity
    have byteMagnitude_le :=
      calc (2 : ℚ) ^ row.k * (1 + (((floatSignificand x).toNat / 2 ^ (23 - row.rem) : ℕ) : ℚ) / 2 ^ row.rem)
        _ ≤ (2 : ℚ) ^ ((floatExponent x).toNat - 127 : ℤ) * (1 + (floatSignificand x).toNat / 2 ^ 23) :=
          mul_le_mul (zpow_le_zpow_right₀ one_le_two (hrowk ▸ clampRegime_le kept.le))
            (add_le_add_right (truncatedSignificand_le _ ((rem_le_six row hrow).trans (by decide))) 1) (by positivity)
            (by positivity)
        _ = floatMagnitude x := by rw [magnitude, mul_comm]
    rw [mul_assoc] at value
    refine ⟨_, _, exec_fromFloat_of_eq byte s, value, ?_, .inr (signFactor_mul_mul_pos _ (by positivity) positive)⟩
    rwa [abs_signFactor_mul _ (by positivity), abs_signFactor_mul _ positive.le]

/-- Settles O53: each row's meaning writes its byte out, and F32_NORMAL's is PACK's on the fields that R42 names. -/
theorem floatClassRowsComplete : Obligations.FloatClassRowsComplete := by
  intro s sign e m
  refine ⟨rfl, rfl, rfl, rfl, _, rfl, ?_⟩
  rw [← regimeOfExponent_eq_ofInt]
  rfl

end Sys2Proof.Proofs
end

