-- ==== Sys2Proof/Proofs/Decoder.lean ====
section
/-! TOFLOAT as an evaluation (R85 to R92): an ordinary byte is the byte of a row of R36 with a value, so its output word and
the number it denotes are those of the row's fields. -/

namespace Sys2Proof

/-! ### The row of an ordinary byte (R36) -/

/-- A magnitude byte other than `0x00` is of a row with a value, with its own low bits as the field. -/
theorem exists_row_of_magnitude {m : BitVec 8} (h0 : m ≠ 0x00#8) (h7 : m.toNat < 128) :
    ∃ row ∈ magnitudeRows, row ≠ rowM7 ∧ ∃ field : BitVec 8, field.toNat < 2 ^ row.rem ∧ row.magnitude field = m := by
  obtain ⟨row, hrow, hits⟩ := exists_row_hits_of_le (BitVec.le_def.mpr (Nat.le_of_lt_succ h7))
  have hrem : row.rem ≤ 8 := (Machine.rem_le_six row hrow).trans (by decide)
  refine ⟨row, hrow, ?_, _, Machine.toNat_setWidth_lt hrem _, MagnitudeRow.magnitude_of_hits hrow hits⟩
  rintro rfl
  have all_bits : m &&& 0xFF#8 = 0x00#8 := beq_iff_eq.mp hits
  exact h0 (BitVec.and_allOnes.symm.trans all_bits)

theorem exists_row_of_ordinary {b : PositByte} (h0 : b ≠ 0x00#8) (hnar : b ≠ 0x80#8) :
    ∃ row ∈ magnitudeRows, row ≠ rowM7 ∧ ∃ (sign : Bool) (field : BitVec 8),
      field.toNat < 2 ^ row.rem ∧ rawByte sign (row.magnitude field) = b := by
  obtain ⟨row, hrow, hvalued, field, hfield, hm⟩ :=
    exists_row_of_magnitude (magnitudeOf_ne_zero h0) (toNat_magnitudeOf_lt hnar)
  exact ⟨row, hrow, hvalued, byteSign b, field, hfield, by rw [hm, rawByte_magnitudeOf]⟩

end Sys2Proof

namespace Sys2Proof.Machine

open Sys2Proof

/-- Only the first 13 rows are of ordinary bytes, whose regime values are from −6 to 6 (R64). -/
theorem regime_mem_of_valued : ∀ row ∈ magnitudeRows, row ≠ rowM7 → -6 ≤ row.k ∧ row.k ≤ 6 := by
  decide

/-- No regime leaves room for the last bit of the 6-bit fraction. -/
theorem rem_le_five : ∀ row ∈ magnitudeRows, row.rem ≤ 5 := by
  decide

theorem toInt_regime_of_row : ∀ row ∈ magnitudeRows, (BitVec.ofInt 4 row.k).toInt = row.k := by
  decide

/-! ### The output word (R90) -/

/-- TOFLOAT shows its byte and the byte's float, and leaves the rest of the state alone. -/
theorem exec_toFloat_eq_iff {b : PositByte} {f : Binary32} {s : State} :
    exec (.toFloat b) s = .next { s with decoder := { pIn := b, fOut := f } } ↔ decodeByte Config.divisor b = f := by
  constructor
  · intro h
    exact congrArg (·.decoder.fOut) (Host.Outcome.next.inj h)
  · rintro rfl
    rfl

theorem exec_toFloat_of_eq {b : PositByte} {f : Binary32} (hf : decodeByte Config.divisor b = f) (s : State) :
    exec (.toFloat b) s = .next { s with decoder := { pIn := b, fOut := f } } :=
  exec_toFloat_eq_iff.mpr hf

/-- The fraction's 6 bits are the top of the significand (R90), where FROMFLOAT looks for them (R42). -/
theorem fractionOfSignificand_significandOfFraction (F : BitVec 6) :
    fractionOfSignificand (significandOfFraction .div64 F) = F := by
  apply BitVec.eq_of_toNat_eq
  rw [toNat_fractionOfSignificand, toNat_significandOfFraction, Nat.mul_div_cancel _ (Nat.two_pow_pos 17)]

/-- Bits 16 to 0 of a float word are the low bits of its significand. -/
theorem toNat_lowBits_floatWord (sign : Bool) (e : BitVec 8) (m : BitVec 23) :
    ((floatWord sign e m).extractLsb 16 0).toNat = m.toNat % 2 ^ 17 := by
  have low : (floatWord sign e m).extractLsb 16 0 = m.setWidth 17 := by
    apply BitVec.eq_of_getLsbD_eq
    intro i hi
    have inside : i < 23 := by omega
    rw [BitVec.getLsbD_setWidth, decide_eq_true hi, Bool.true_and, ← floatSignificand_floatWord sign e m,
      getLsbD_floatSignificand, decide_eq_true inside, Bool.true_and]
    simp [hi]
  rw [low, BitVec.toNat_setWidth]

/-! ### The number it denotes (R88, R89) -/

/-- The number of a float whose exponent is a row's regime value, whatever its significand. -/
theorem floatValue_of_regime {row : MagnitudeRow} (hrow : row ∈ magnitudeRows) (sign : Bool) (m : BitVec 23) :
    floatValue (floatWord sign (exponentOfRegime (BitVec.ofInt 4 row.k)) m) =
      some (signFactor sign * (2 : ℚ) ^ row.k * (1 + (m.toNat : ℚ) / 2 ^ 23)) := by
  obtain ⟨exponent, notTop, notBottom⟩ := exponentOfRegime_of_row row hrow
  rw [floatValue_of_finite (by rwa [floatExponent_floatWord]), floatMagnitude_of_normal (by rwa [floatExponent_floatWord])]
  simp only [floatSign_floatWord, floatExponent_floatWord, floatSignificand_floatWord, exponent]
  rw [mul_comm (1 + _), mul_assoc]

/-- With the literal divisor the fraction comes one place lower (D1). -/
theorem toNat_significandOfFraction_div128 (F : BitVec 6) :
    (significandOfFraction .div128 F).toNat = F.toNat * 2 ^ 16 := by
  change (0#1 ++ F ++ 0#16 : BitVec (1 + 6 + 16)).toNat = _
  rw [BitVec.toNat_append, BitVec.toNat_append, Nat.shiftLeft_eq]
  simp

/-- Aligning a field left does not change the number it stands for (R39). -/
theorem field_div_eq_fraction_div {row : MagnitudeRow} (hrow : row ∈ magnitudeRows) {field : BitVec 8}
    (hfield : field.toNat < 2 ^ row.rem) (sign : Bool) :
    (field.toNat : ℚ) / 2 ^ row.rem = ((rowFields row sign field).fraction.toNat : ℚ) / 64 := by
  have width : (64 : ℚ) = 2 ^ row.rem * 2 ^ (6 - row.rem) := by
    rw [pow_mul_pow_sub _ (rem_le_six row hrow)]
    norm_num
  rw [toNat_fraction_of_row hrow hfield, width, Nat.cast_mul, Nat.cast_pow, Nat.cast_ofNat,
    mul_div_mul_right _ _ (by positivity)]

theorem signFactor_ne_zero (sign : Bool) : signFactor sign ≠ 0 := by
  cases sign <;> decide

end Sys2Proof.Machine

namespace Sys2Proof.Proofs

open Sys2Proof Sys2Proof.Machine

/-- Settles O43: the byte is a row's, and the output word is made of the row's fields. -/
theorem decoderOutputWord : Obligations.DecoderOutputWord := by
  intro s b h0 hnar
  obtain ⟨row, hrow, hvalued, sign, field, hfield, rfl⟩ := exists_row_of_ordinary h0 hnar
  obtain ⟨exponent, -⟩ := exponentOfRegime_of_row row hrow
  obtain ⟨low, high⟩ := regime_mem_of_valued row hrow hvalued
  have word := decodeByte_of_row hrow hvalued hfield sign .div64
  generalize hd : rowFields row sign field = d at word
  have regime : d.k = BitVec.ofInt 4 row.k := by rw [← hd, rowFields]
  have biased : (((floatOfFields .div64 d).extractLsb 30 23).toNat : ℤ) = row.k + 127 := by
    change ((floatExponent (floatOfFields .div64 d)).toNat : ℤ) = _
    rw [floatOfFields, floatExponent_floatWord, regime]
    omega
  refine ⟨d, floatOfFields .div64 d, exec_unpack_of_eq ((unpackByte_of_row hrow hvalued hfield sign).trans hd) s,
    exec_toFloat_of_eq word s, floatSign_floatWord _ _ _, ?_, ?_, ?_, by omega, by omega⟩
  · rw [biased, regime, toInt_regime_of_row row hrow]
  · rw [← fractionOfSignificand_floatSignificand, floatOfFields, floatSignificand_floatWord,
      fractionOfSignificand_significandOfFraction]
  · apply BitVec.eq_of_toNat_eq
    rw [floatOfFields, toNat_lowBits_floatWord, toNat_significandOfFraction, Nat.mul_mod_left]
    rfl

/-- Settles O44: the float of a row's fields and the row's byte denote one number; the field's last place is at least the
second of the 6 bits. -/
theorem decoderGivesTheBytesValue : Obligations.DecoderGivesTheBytesValue := by
  intro s b h0 hnar
  obtain ⟨row, hrow, hvalued, sign, field, hfield, rfl⟩ := exists_row_of_ordinary h0 hnar
  have regime : (rowFields row sign field).k.toInt = row.k := toInt_regime_of_row row hrow
  obtain ⟨low, high⟩ := regime_mem_of_valued row hrow hvalued
  have even : (rowFields row sign field).fraction.toNat % 2 = 0 := by
    have room : 6 - row.rem = 5 - row.rem + 1 := by
      have := rem_le_five row hrow
      omega
    rw [toNat_fraction_of_row hrow hfield, room, pow_succ, ← mul_assoc, Nat.mul_mod_left]
  have sixBits := (rowFields row sign field).fraction.isLt
  refine ⟨rowFields row sign field, floatOfFields .div64 (rowFields row sign field), _,
    exec_unpack_of_eq (unpackByte_of_row hrow hvalued hfield sign) s,
    exec_toFloat_of_eq (decodeByte_of_row hrow hvalued hfield sign .div64) s, by omega, by omega, by omega, even,
    rfl, ?_, ?_⟩
  · rw [floatValue_of_row hrow hfield, field_div_eq_fraction_div hrow hfield sign, regime, mul_assoc]
    rfl
  · rw [byteValue_of_row hrow hfield sign hvalued, field_div_eq_fraction_div hrow hfield sign, regime, mul_assoc]
    rfl

/-- Settles O50: the byte denotes `±2^k × (1 + F/64)` and the literal divisor gives `±2^k × (1 + F/128)`, which is the same
number for `F = 0` only. -/
theorem divisorOf128BreaksTheRoundTrip : Obligations.DivisorOf128BreaksTheRoundTrip := by
  refine ⟨by decide, by decide, by decide, fun b hvalue => ?_⟩
  have hnar : b ≠ 0x80#8 := by
    rintro rfl
    exact hvalue rfl
  by_cases h0 : b = 0x00#8
  · subst h0
    have zero : floatValue (decodeByte .div128 0x00#8) = byteValue 0x00#8 := by
      change floatValue 0x00000000#32 = some 0
      rw [floatValue_of_finite (by decide)]
      simp [floatMagnitude, floatExponent, floatSignificand]
    exact iff_of_true zero (by decide)
  · obtain ⟨row, hrow, hvalued, sign, field, hfield, rfl⟩ := exists_row_of_ordinary h0 hnar
    have regime : (rowFields row sign field).k = BitVec.ofInt 4 row.k := rfl
    rw [decodeByte_of_row hrow hvalued hfield, floatOfFields, regime, floatValue_of_regime hrow,
      byteValue_of_row hrow hfield sign hvalued, toNat_significandOfFraction_div128,
      field_div_eq_fraction_div hrow hfield sign, unpackByte_of_row hrow hvalued hfield]
    generalize (rowFields row sign field).fraction = F
    have scale : signFactor sign * (2 : ℚ) ^ row.k ≠ 0 := mul_ne_zero (signFactor_ne_zero sign) (by positivity)
    rw [show (rowFields row sign field).sign = sign from rfl, Option.some_inj, mul_right_inj' scale, add_right_inj,
      ← BitVec.toNat_inj]
    constructor
    · intro same
      have : (F.toNat : ℚ) = 0 := by
        push_cast at same
        linarith
      exact_mod_cast this
    · intro zero
      rw [zero]
      norm_num

/-- Settles O42: TOFLOAT's two tests come first (R86, R87), and NAN_OUT is a NaN whatever its free bits are. -/
theorem decoderOfZeroAndNaR : Obligations.DecoderOfZeroAndNaR := by
  intro s
  obtain ⟨top, fraction⟩ : floatExponent nanOut = 0xFF#8 ∧ floatSignificand nanOut ≠ 0#23 := by
    simpa [isNaN] using isNaN_nanOut
  exact ⟨exec_toFloat_of_eq rfl s, nanOut, congrArg BitVec.toNat top,
    fun zero => fraction (BitVec.eq_of_toNat_eq zero), exec_toFloat_of_eq rfl s⟩

end Sys2Proof.Proofs
end

