-- ==== Sys2Proof/Proofs/DecoderImage.lean ====
section
/-! The image of TOFLOAT (R93): FROMFLOAT undoes TOFLOAT, so no two bytes give one float; negating the byte flips bit 31; and
the numbers of the rows with a value are those that come out. -/

namespace Sys2Proof

/-- The sign bit of a float word is bit 31 alone (R40). -/
theorem floatWord_xor_signBit (sign : Bool) (e : BitVec 8) (m : BitVec 23) :
    floatWord sign e m ^^^ 0x80000000#32 = floatWord (!sign) e m := by
  have mask : (0x80000000#32 : BitVec 32) = floatWord true 0x00#8 0#23 := by decide
  rw [mask]
  apply BitVec.eq_of_getLsbD_eq
  intro i _
  simp only [BitVec.getLsbD_xor, getLsbD_floatWord]
  split_ifs with significand exponent
  · simp
  · simp
  · cases decide (i = 31) <;> simp

/-- Negating a byte turns its sign over (R7, R54). -/
theorem neg8_rawByte (sign : Bool) (m : BitVec 8) : neg8 (rawByte sign m) = rawByte (!sign) m := by
  cases sign with
  | false => rfl
  | true => exact neg8_neg8 m

end Sys2Proof

namespace Sys2Proof.Machine

open Sys2Proof

/-! ### FROMFLOAT undoes TOFLOAT -/

/-- A field that fits comes back from the 6-bit fraction (R39). -/
theorem fieldFromFraction_of_row {row : MagnitudeRow} (hrow : row ∈ magnitudeRows) {field : BitVec 8}
    (hfield : field.toNat < 2 ^ row.rem) (sign : Bool) :
    fieldFromFraction (rowFields row sign field).fraction row.rem = field := by
  apply BitVec.eq_of_toNat_eq
  rw [toNat_fieldFromFraction, toNat_fraction_of_row hrow hfield, Nat.shiftRight_eq_div_pow,
    Nat.mul_div_cancel _ (Nat.two_pow_pos _)]

/-- The exponent of a row's float is the row's regime value, and the fraction is the row's field (R42). -/
theorem encodeFloat_floatOfFields_of_row (policy : Config.InfPolicy) {row : MagnitudeRow} (hrow : row ∈ magnitudeRows)
    {field : BitVec 8} (hfield : field.toNat < 2 ^ row.rem) (sign : Bool) :
    encodeFloat policy (floatOfFields .div64 (rowFields row sign field)) = rawByte sign (row.magnitude field) := by
  obtain ⟨exponent, notTop, -⟩ := exponentOfRegime_of_row row hrow
  have regime : (rowFields row sign field).k = BitVec.ofInt 4 row.k := rfl
  have finite : floatExponent (floatOfFields .div64 (rowFields row sign field)) ≠ 0xFF#8 := by
    rwa [floatOfFields, floatExponent_floatWord, regime]
  rw [encodeFloat_of_finite policy finite]
  simp only [floatOfFields, floatSign_floatWord, floatExponent_floatWord, floatSignificand_floatWord, regime, exponent,
    fractionOfSignificand_significandOfFraction]
  rw [packMagnitude_of_row hrow (regime_of_row row hrow).1, fieldFromFraction_of_row hrow hfield, rowFields]

theorem encodeFloat_decodeByte (b : PositByte) : encodeFloat Config.infPolicy (decodeByte Config.divisor b) = b := by
  by_cases hnar : b = 0x80#8
  · rw [hnar]
    exact encodeFloat_of_top (by simp [decodeByte, nanOut])
  by_cases h0 : b = 0x00#8
  · rw [h0]
    decide
  · obtain ⟨row, hrow, hvalued, sign, field, hfield, rfl⟩ := exists_row_of_ordinary h0 hnar
    rw [decodeByte_of_row hrow hvalued hfield]
    exact encodeFloat_floatOfFields_of_row _ hrow hfield sign

/-! ### Floats and numbers of rows -/

theorem floatOfFields_xor_signBit (row : MagnitudeRow) (sign : Bool) (field : BitVec 8) (div : Config.Divisor) :
    floatOfFields div (rowFields row sign field) ^^^ 0x80000000#32 = floatOfFields div (rowFields row (!sign) field) :=
  floatWord_xor_signBit _ _ _

theorem isNormal_floatOfFields_of_row {row : MagnitudeRow} (hrow : row ∈ magnitudeRows) (sign : Bool) (field : BitVec 8)
    (div : Config.Divisor) : isNormal (floatOfFields div (rowFields row sign field)) = true := by
  obtain ⟨-, notTop, notBottom⟩ := exponentOfRegime_of_row row hrow
  rw [isNormal_iff, floatOfFields, floatExponent_floatWord]
  exact ⟨notBottom, notTop⟩

/-- What a fraction field adds to 1 stays below 2. -/
theorem significand_of_field_mem {field rem : ℕ} (hfield : field < 2 ^ rem) :
    1 ≤ 1 + (field : ℚ) / 2 ^ rem ∧ 1 + (field : ℚ) / 2 ^ rem < 2 := by
  have below_one : (field : ℚ) / 2 ^ rem < 1 := (div_lt_one (by positivity)).mpr (by exact_mod_cast hfield)
  have nonneg : 0 ≤ (field : ℚ) / 2 ^ rem := by positivity
  constructor <;> linarith

/-- The largest regime value leaves no room for a fraction (R36). -/
theorem rem_eq_zero_of_regime_six : ∀ row ∈ magnitudeRows, row.k = 6 → row.rem = 0 := by
  decide

/-- The numbers of the rows lie between minpos 1/64 and maxpos 64 (R45): the largest regime value has no field. -/
theorem magnitude_of_row_mem {row : MagnitudeRow} (hrow : row ∈ magnitudeRows) (hvalued : row ≠ rowM7) {field : ℕ}
    (hfield : field < 2 ^ row.rem) : 1 / 64 ≤ (2 : ℚ) ^ row.k * (1 + (field : ℚ) / 2 ^ row.rem) ∧
      (2 : ℚ) ^ row.k * (1 + (field : ℚ) / 2 ^ row.rem) ≤ 64 := by
  obtain ⟨low, high⟩ := regime_mem_of_valued row hrow hvalued
  obtain ⟨one_le, lt_two⟩ := significand_of_field_mem hfield
  have scale : (0 : ℚ) < 2 ^ row.k := zpow_pos two_pos _
  constructor
  · calc (1 / 64 : ℚ) = 2 ^ (-6 : ℤ) := by norm_num
      _ ≤ 2 ^ row.k := zpow_le_zpow_right₀ one_le_two low
      _ ≤ _ := le_mul_of_one_le_right scale.le one_le
  · rcases high.eq_or_lt with top | below
    · rw [rem_eq_zero_of_regime_six row hrow top, pow_zero, Nat.lt_one_iff] at hfield
      rw [top, hfield]
      norm_num
    · calc (2 : ℚ) ^ row.k * (1 + (field : ℚ) / 2 ^ row.rem)
        _ ≤ 2 ^ (5 : ℤ) * 2 :=
          mul_le_mul (zpow_le_zpow_right₀ one_le_two (Int.le_of_lt_add_one below)) lt_two.le (by linarith) (by positivity)
        _ = 64 := by norm_num

/-- The number of fraction bits that a regime value leaves room for (R53). -/
theorem rem_of_valued : ∀ row ∈ magnitudeRows, row ≠ rowM7 →
    (if 0 ≤ row.k then 5 - row.k else 6 + row.k).toNat = row.rem := by
  decide

theorem exists_valued_row_of_regime {k : ℤ} (low : -6 ≤ k) (high : k ≤ 6) :
    ∃ row ∈ magnitudeRows, row ≠ rowM7 ∧ row.k = k := by
  interval_cases k <;> decide

end Sys2Proof.Machine

namespace Sys2Proof.Proofs

open Sys2Proof Sys2Proof.Machine

/-- Settles O45: an ordinary byte is a sign, a row with a value and a field that fits, and FROMFLOAT gets it back from the
float. -/
theorem decoderImage : Obligations.DecoderImage := by
  constructor
  · intro s b h0 hnar
    obtain ⟨row, hrow, hvalued, sign, field, hfield, rfl⟩ := exists_row_of_ordinary h0 hnar
    have word (sign : Bool) := decodeByte_of_row hrow hvalued hfield sign .div64
    obtain ⟨low, high⟩ := magnitude_of_row_mem hrow hvalued hfield
    have absolute := abs_signFactor_mul sign ((show (0 : ℚ) ≤ 1 / 64 by norm_num).trans low)
    rw [← mul_assoc] at absolute
    rw [← absolute] at low high
    refine ⟨_, _, exec_toFloat_of_eq (word sign) s, isNormal_floatOfFields_of_row hrow sign field _,
      floatValue_of_row hrow hfield sign, byteValue_of_row hrow hfield sign hvalued, low, high,
      exec_toFloat_of_eq ?_ s, fun c hc => ?_⟩
    · rw [floatOfFields_xor_signBit, neg8_rawByte]
      exact word !sign
    · rw [exec_toFloat_eq_iff] at hc
      rw [← encodeFloat_decodeByte c, hc]
      exact encodeFloat_floatOfFields_of_row _ hrow hfield sign
  · intro s v
    constructor
    · rintro ⟨b, f, h0, hnar, hf, hv⟩
      obtain ⟨row, hrow, hvalued, sign, field, hfield, rfl⟩ := exists_row_of_ordinary h0 hnar
      obtain ⟨low, high⟩ := regime_mem_of_valued row hrow hvalued
      obtain rfl := exec_toFloat_eq_iff.mp hf
      refine ⟨sign, row.k, field.toNat, low, high, ?_, ?_⟩ <;> rw [rem_of_valued row hrow hvalued]
      · exact hfield
      · rw [decodeByte_of_row hrow hvalued hfield] at hv
        exact Option.some.inj (hv.symm.trans (floatValue_of_row hrow hfield sign))
    · rintro ⟨sign, k, j, low, high, hj, rfl⟩
      obtain ⟨row, hrow, hvalued, rfl⟩ := exists_valued_row_of_regime low high
      rw [rem_of_valued row hrow hvalued] at hj ⊢
      have small : j < 2 ^ 8 := hj.trans_le (Nat.pow_le_pow_right two_pos ((rem_le_six row hrow).trans (by decide)))
      obtain ⟨field, rfl⟩ : ∃ field : BitVec 8, field.toNat = j := ⟨BitVec.ofNat 8 j, Nat.mod_eq_of_lt small⟩
      have positive := MagnitudeRow.byteSign_of_hits hrow (MagnitudeRow.hits_magnitude hrow hj)
      have nonzero : row.magnitude field ≠ 0x00#8 := magnitude_ne_zero hrow hvalued
      exact ⟨_, _, rawByte_ne_zero positive nonzero sign, rawByte_ne_nar positive nonzero sign,
        exec_toFloat_of_eq (decodeByte_of_row hrow hvalued hj sign .div64) s, floatValue_of_row hrow hj sign⟩

end Sys2Proof.Proofs
end

