-- ==== Sys2Proof/Proofs/EncoderIntervals.lean ====
section
/-! The inputs of each byte (spec/95_test_vectors.md section 2.3). On patterns without their sign bit, FROMFLOAT's magnitude
byte and TOFLOAT are a Galois connection: TOFLOAT of a magnitude byte is at most the pattern exactly when the byte is at most
the pattern's. So the patterns of one byte are those from its float up to the next byte's. -/

namespace Sys2Proof

/-- Two bytes agree when their signs and magnitude bytes do (R32, R54). -/
theorem rawByte_eq_rawByte_iff {m n : BitVec 8} (hm : byteSign m = false) (hn : byteSign n = false) (h0 : n ≠ 0x00#8)
    (s t : Bool) : rawByte s m = rawByte t n ↔ s = t ∧ m = n := by
  constructor
  · intro h
    have hm0 : m ≠ 0x00#8 := by
      rintro rfl
      exact rawByte_ne_zero hn h0 t (h.symm.trans (rawByte_zero s))
    have signs := congrArg byteSign h
    have magnitudes := congrArg magnitudeOf h
    rw [byteSign_rawByte hm hm0, byteSign_rawByte hn h0] at signs
    rw [magnitudeOf_rawByte hm hm0, magnitudeOf_rawByte hn h0] at magnitudes
    exact ⟨signs, magnitudes⟩
  · rintro ⟨rfl, rfl⟩
    rfl

end Sys2Proof

namespace Sys2Proof.Machine

open Sys2Proof

/-! ### Patterns without the sign bit (R40) -/

/-- Bits 30 to 0 of a float, read as an unsigned integer. -/
def magnitudeWord (x : Binary32) : ℕ := (floatExponent x).toNat * 2 ^ 23 + (floatSignificand x).toNat

theorem magnitudeWord_lt (x : Binary32) : magnitudeWord x < 2 ^ 31 := by
  have := (floatExponent x).isLt
  have := (floatSignificand x).isLt
  unfold magnitudeWord
  omega

theorem toNat_eq_magnitudeWord (x : Binary32) : x.toNat = (floatSign x).toNat * 2 ^ 31 + magnitudeWord x := by
  have significand := (floatSignificand x).isLt
  have magnitude := magnitudeWord_lt x
  conv_lhs => rw [← floatWord_of_fields x]
  change (BitVec.ofBool (floatSign x) ++ floatExponent x ++ floatSignificand x : BitVec (1 + 8 + 23)).toNat = _
  rw [BitVec.toNat_append, BitVec.toNat_append, ← Nat.shiftLeft_add_eq_or_of_lt significand,
    ← Nat.shiftLeft_add_eq_or_of_lt (floatExponent x).isLt, Nat.shiftLeft_eq, Nat.shiftLeft_eq, BitVec.toNat_ofBool,
    magnitudeWord]
  ring

theorem toNat_eq_magnitudeWord_or (x : Binary32) : x.toNat = magnitudeWord x ∨ x.toNat = 2 ^ 31 + magnitudeWord x := by
  rw [toNat_eq_magnitudeWord x]
  cases floatSign x <;> simp

/-- Exponent 255 is the top of the patterns. -/
theorem floatExponent_ne_top_iff (x : Binary32) : floatExponent x ≠ 0xFF#8 ↔ magnitudeWord x < 0x7F800000 := by
  have top : floatExponent x = 0xFF#8 ↔ (floatExponent x).toNat = 255 := BitVec.toNat_inj.symm
  have := (floatExponent x).isLt
  have := (floatSignificand x).isLt
  rw [ne_eq, top, magnitudeWord]
  omega

/-! ### The magnitude byte of a pattern -/

/-- What FROMFLOAT puts under the sign for a finite input. -/
def encodedMagnitude (x : Binary32) : BitVec 8 :=
  packMagnitude ((floatExponent x).toNat - 127) (fractionOfSignificand (floatSignificand x))

theorem byteSign_encodedMagnitude (x : Binary32) : byteSign (encodedMagnitude x) = false :=
  byteSign_packMagnitude _ _

/-- FROMFLOAT gives a byte other than `0x00` and NaR for the finite inputs of its sign and magnitude byte. -/
theorem encodeFloat_eq_rawByte_iff {m : BitVec 8} (hm : byteSign m = false) (h0 : m ≠ 0x00#8) (sign : Bool) (x : Binary32) :
    encodeFloat Config.infPolicy x = rawByte sign m ↔
      floatExponent x ≠ 0xFF#8 ∧ floatSign x = sign ∧ encodedMagnitude x = m := by
  by_cases top : floatExponent x = 0xFF#8
  · rw [encodeFloat_of_top top]
    exact iff_of_false (rawByte_ne_nar hm h0 sign).symm fun h => h.1 top
  · rw [encodeFloat_of_finite _ top, ← encodedMagnitude,
      rawByte_eq_rawByte_iff (byteSign_encodedMagnitude x) hm h0]
    exact (and_iff_right top).symm

theorem exec_fromFloat_eq_iff {x : Binary32} {p : PositByte} {s : State} :
    exec (.fromFloat x) s = .next { s with encoder := { fIn := x, pOut := p } } ↔
      encodeFloat Config.infPolicy x = p := by
  constructor
  · intro h
    exact congrArg (·.encoder.pOut) (Host.Outcome.next.inj h)
  · exact fun h => exec_fromFloat_of_eq h s

/-! ### The Galois connection -/

section
variable {row : MagnitudeRow} (hrow : row ∈ magnitudeRows)
include hrow

theorem toNat_magnitude {field : BitVec 8} (hfield : field.toNat < 2 ^ row.rem) :
    (row.magnitude field).toNat = row.pattern.toNat + field.toNat := by
  have high := (MagnitudeRow.hits_iff_div_eq hrow _).mp (MagnitudeRow.hits_magnitude hrow hfield)
  have aligned : ∀ row ∈ magnitudeRows, 2 ^ row.rem * (row.pattern.toNat / 2 ^ row.rem) = row.pattern.toNat := by decide
  rw [← Nat.div_add_mod (row.magnitude field).toNat (2 ^ row.rem), high, aligned row hrow,
    toNat_magnitude_mod hrow hfield]

/-- The pattern of a row's float: the exponent `k + 127`, and the field at the top of the significand (R90). -/
theorem magnitudeWord_of_row {field : BitVec 8} (hfield : field.toNat < 2 ^ row.rem) (sign : Bool) :
    magnitudeWord (floatOfFields .div64 (rowFields row sign field)) =
      (row.k + 127).toNat * 2 ^ 23 + field.toNat * 2 ^ (23 - row.rem) := by
  obtain ⟨exponent, -⟩ := exponentOfRegime_of_row row hrow
  have regime : (rowFields row sign field).k = BitVec.ofInt 4 row.k := rfl
  have hrem := rem_le_six row hrow
  have align : 23 - row.rem = 6 - row.rem + 17 := by omega
  rw [magnitudeWord, floatOfFields, floatExponent_floatWord, floatSignificand_floatWord, toNat_significandOfFraction,
    toNat_fraction_of_row hrow hfield, regime, align, pow_add, mul_assoc]
  congr 2
  omega

/-- The field stays within the significand. -/
theorem alignedField_lt {field : ℕ} (hfield : field < 2 ^ row.rem) : field * 2 ^ (23 - row.rem) < 2 ^ 23 := by
  rw [← pow_mul_pow_sub 2 ((rem_le_six row hrow).trans (by decide : 6 ≤ 23))]
  exact Nat.mul_lt_mul_of_pos_right hfield (Nat.two_pow_pos _)

/-- The magnitude byte of a pattern: the row's own bits, and the top of the significand as the field (R79). -/
theorem toNat_encodedMagnitude {x : Binary32} (hk : row.k = clampRegime ((floatExponent x).toNat - 127)) :
    (encodedMagnitude x).toNat = row.pattern.toNat + (floatSignificand x).toNat / 2 ^ (23 - row.rem) ∧
      (floatSignificand x).toNat / 2 ^ (23 - row.rem) < 2 ^ row.rem := by
  have hrem := rem_le_six row hrow
  have hfits := toNat_fieldFromFraction_lt (fractionOfSignificand (floatSignificand x)) hrem
  rw [encodedMagnitude, packMagnitude_of_row hrow hk.symm, toNat_magnitude hrow hfits,
    ← toNat_fieldFromFraction_of_significand _ hrem]
  exact ⟨rfl, hfits⟩

end

theorem row_eq_of_regime_eq : ∀ row ∈ magnitudeRows, ∀ other ∈ magnitudeRows, row.k = other.k → row = other := by
  decide

/-- The rows' bytes are in the order of their regime values (R36). -/
theorem pattern_add_le_pattern : ∀ row ∈ magnitudeRows, ∀ other ∈ magnitudeRows, row.k < other.k →
    row.pattern.toNat + 2 ^ row.rem ≤ other.pattern.toNat := by
  decide

/-- TOFLOAT of a magnitude byte is at most a pattern exactly when the byte is at most the pattern's byte. With different
regime values both sides are decided by these; with the same, both compare the field with the top of the significand. -/
theorem le_encodedMagnitude_iff {m : BitVec 8} (h0 : m ≠ 0x00#8) (h7 : m.toNat < 128) (x : Binary32) :
    m.toNat ≤ (encodedMagnitude x).toNat ↔ magnitudeWord (decodeByte .div64 m) ≤ magnitudeWord x := by
  obtain ⟨row, hrow, hvalued, field, hfield, rfl⟩ := exists_row_of_magnitude h0 h7
  obtain ⟨other, hother, hk⟩ := exists_row_of_regime ((floatExponent x).toNat - 127)
  obtain ⟨low, high⟩ := regime_mem_of_valued row hrow hvalued
  obtain ⟨hbyte, hcut⟩ := toNat_encodedMagnitude hother hk
  have word : decodeByte .div64 (row.magnitude field) = _ := decodeByte_of_row hrow hvalued hfield false .div64
  rw [word, magnitudeWord_of_row hrow hfield, toNat_magnitude hrow hfield, magnitudeWord]
  have significand := (floatSignificand x).isLt
  have aligned := alignedField_lt hrow hfield
  unfold clampRegime at hk
  rcases lt_trichotomy row.k other.k with below | same | above
  · have := pattern_add_le_pattern row hrow other hother below
    have : other.pattern.toNat ≤ (encodedMagnitude x).toNat := hbyte ▸ Nat.le_add_right _ _
    exact iff_of_true (by omega) (by omega)
  · obtain rfl : row = other := row_eq_of_regime_eq row hrow other hother same
    rw [hbyte, Nat.add_le_add_iff_left, Nat.le_div_iff_mul_le (Nat.two_pow_pos _)]
    by_cases saturated : 6 < ((floatExponent x).toNat - 127 : ℤ)
    · have bare := rem_eq_zero_of_regime_six row hrow (by omega)
      have empty : field.toNat = 0 := by simpa [bare] using hfield
      rw [empty, Nat.zero_mul]
      exact iff_of_true (Nat.zero_le _) (by omega)
    · omega
  · have := pattern_add_le_pattern other hother row hrow above
    exact iff_of_false (by omega) (by omega)

/-! ### The intervals -/

theorem ne_zero_of_toNat_pos {m : BitVec 8} (h : 0 < m.toNat) : m ≠ 0x00#8 := by
  rintro rfl
  exact absurd h (by decide)

theorem toNat_lt_of_positive {m : BitVec 8} (h7 : byteSign m = false) : m.toNat < 128 := by
  simpa [byteSign_eq_decide] using h7

/-- The connection twice: at the byte, and at its successor. -/
theorem encodedMagnitude_eq_iff {m : BitVec 8} (h0 : 0x01 ≤ m.toNat) (h7 : m.toNat ≤ 0x7E) (x : Binary32) :
    encodedMagnitude x = m ↔ magnitudeWord (decodeByte .div64 m) ≤ magnitudeWord x ∧
      magnitudeWord x < magnitudeWord (decodeByte .div64 (m + 1#8)) := by
  have succ : (m + 1#8).toNat = m.toNat + 1 := BitVec.toNat_add_of_lt (show m.toNat + 1 < 256 by omega)
  rw [← le_encodedMagnitude_iff (ne_zero_of_toNat_pos h0) (by omega), ← not_le,
    ← le_encodedMagnitude_iff (ne_zero_of_toNat_pos (by omega)) (by omega), succ, ← BitVec.toNat_inj]
  omega

/-- The patterns of a sign are an interval of unsigned integers. -/
theorem sign_and_magnitudeWord_mem_iff (x : Binary32) {low high : ℕ} (hhigh : high ≤ 2 ^ 31) :
    (floatSign x = false ∧ low ≤ magnitudeWord x ∧ magnitudeWord x < high ↔ low ≤ x.toNat ∧ x.toNat < high) ∧
    (floatSign x = true ∧ low ≤ magnitudeWord x ∧ magnitudeWord x < high ↔
      2 ^ 31 + low ≤ x.toNat ∧ x.toNat < 2 ^ 31 + high) := by
  have := magnitudeWord_lt x
  rw [toNat_eq_magnitudeWord x]
  cases floatSign x with
  | false => simp; omega
  | true => simp; omega

/-- maxpos takes everything from its own float on. -/
theorem encodedMagnitude_eq_maxpos_iff (x : Binary32) : encodedMagnitude x = 0x7F#8 ↔ 0x42800000 ≤ magnitudeWord x := by
  have maxpos : magnitudeWord (decodeByte .div64 0x7F#8) = 0x42800000 := by decide
  have below := toNat_lt_of_positive (byteSign_encodedMagnitude x)
  rw [← maxpos, ← le_encodedMagnitude_iff (m := 0x7F#8) (by decide) (by decide), ← BitVec.toNat_inj]
  change _ = 127 ↔ 127 ≤ _
  omega

/-- Below minpos there is `0x00` alone. -/
theorem encodedMagnitude_eq_zero_iff (x : Binary32) : encodedMagnitude x = 0x00#8 ↔ magnitudeWord x < 0x3C800000 := by
  have minpos : magnitudeWord (decodeByte .div64 0x01#8) = 0x3C800000 := by decide
  rw [← minpos, ← not_le, ← le_encodedMagnitude_iff (m := 0x01#8) (by decide) (by decide), ← BitVec.toNat_inj]
  change _ = 0 ↔ ¬ 1 ≤ _
  omega

/-! ### FROMFLOAT's pre-images -/

/-- FROMFLOAT's pre-image of a byte from `±0x01` to `±0x7E`; NaNs and infinities lie above all of these. -/
theorem encodeFloat_eq_rawByte_iff_mem {m : BitVec 8} (h0 : 0x01 ≤ m.toNat) (h7 : m.toNat ≤ 0x7E) (sign : Bool)
    (x : Binary32) : encodeFloat Config.infPolicy x = rawByte sign m ↔
      floatSign x = sign ∧ magnitudeWord (decodeByte .div64 m) ≤ magnitudeWord x ∧
        magnitudeWord x < magnitudeWord (decodeByte .div64 (m + 1#8)) := by
  have finite : encodedMagnitude x = m → floatExponent x ≠ 0xFF#8 := by
    rintro rfl
    have notMaxpos : encodedMagnitude x ≠ 0x7F#8 := fun h => by simp [h] at h7
    rw [ne_eq, encodedMagnitude_eq_maxpos_iff] at notMaxpos
    rw [floatExponent_ne_top_iff]
    omega
  have positive : byteSign m = false := by
    rw [byteSign_eq_decide, decide_eq_false_iff_not]
    omega
  rw [encodeFloat_eq_rawByte_iff positive (ne_zero_of_toNat_pos h0), and_iff_right_of_imp fun h => finite h.2,
    encodedMagnitude_eq_iff h0 h7]

theorem encodeFloat_eq_maxpos_iff_mem (sign : Bool) (x : Binary32) : encodeFloat Config.infPolicy x = rawByte sign 0x7F#8 ↔
    floatSign x = sign ∧ 0x42800000 ≤ magnitudeWord x ∧ magnitudeWord x < 0x7F800000 := by
  rw [encodeFloat_eq_rawByte_iff (by decide) (by decide), floatExponent_ne_top_iff, encodedMagnitude_eq_maxpos_iff]
  exact and_comm.trans and_assoc

theorem encodeFloat_eq_nar_iff (x : Binary32) :
    encodeFloat Config.infPolicy x = 0x80#8 ↔ 0x7F800000 ≤ magnitudeWord x := by
  rw [← not_lt, ← floatExponent_ne_top_iff, not_ne_iff]
  exact ⟨fun h => of_not_not fun finite => encodeFloat_ne_nar _ finite h, encodeFloat_of_top⟩

/-- Either sign of a pattern below minpos gives `0x00`. -/
theorem encodeFloat_eq_zero_iff (x : Binary32) :
    encodeFloat Config.infPolicy x = 0x00#8 ↔ magnitudeWord x < 0x3C800000 := by
  rw [← encodedMagnitude_eq_zero_iff]
  by_cases top : floatExponent x = 0xFF#8
  · have saturated : encodedMagnitude x = 0x7F#8 := by
      rw [encodedMagnitude, top]
      exact packMagnitude_of_six_le (by decide) _
    rw [encodeFloat_of_top top, saturated]
    decide
  · rw [encodeFloat_of_finite _ top]
    exact rawByte_eq_zero_iff (byteSign_encodedMagnitude x) _

/-- The float of a positive byte has sign bit 0, so its pattern is a magnitude. -/
theorem toNat_decodeByte {m : BitVec 8} (h0 : 0 < m.toNat) (h7 : m.toNat < 128) :
    (decodeByte .div64 m).toNat = magnitudeWord (decodeByte .div64 m) := by
  obtain ⟨row, hrow, hvalued, field, hfield, rfl⟩ := exists_row_of_magnitude (ne_zero_of_toNat_pos h0) h7
  have word : decodeByte .div64 (row.magnitude field) = _ := decodeByte_of_row hrow hvalued hfield false .div64
  have positive : floatSign (floatOfFields .div64 (rowFields row false field)) = false := floatSign_floatWord _ _ _
  rw [word, toNat_eq_magnitudeWord, positive]
  simp

end Sys2Proof.Machine

namespace Sys2Proof.Proofs

open Sys2Proof Sys2Proof.Machine

/-- Settles O40: between the byte's float and the next one's by the Galois connection, at the ends by its bounds at minpos
and maxpos, and NaR by the exponent 255; each with the sign bit laid over the pattern. -/
theorem eachByteHasAnIntervalOfInputs : Obligations.EachByteHasAnIntervalOfInputs := by
  refine fun s => ⟨fun b low high => ⟨decodeByte .div64 b, decodeByte .div64 (b + 1#8), exec_toFloat_of_eq rfl s,
    exec_toFloat_of_eq rfl s, fun x => ?_⟩, fun x => ?_⟩
  · have succ : (b + 1#8).toNat = b.toNat + 1 := BitVec.toNat_add_of_lt (show b.toNat + 1 < 256 by omega)
    obtain ⟨positive, negative⟩ := sign_and_magnitudeWord_mem_iff x (low := magnitudeWord (decodeByte .div64 b))
      (magnitudeWord_lt (decodeByte .div64 (b + 1#8))).le
    rw [exec_fromFloat_eq_iff, exec_fromFloat_eq_iff, toNat_decodeByte low (by omega),
      toNat_decodeByte (m := b + 1#8) (by omega) (by omega)]
    exact ⟨(encodeFloat_eq_rawByte_iff_mem low high false x).trans positive,
      (encodeFloat_eq_rawByte_iff_mem low high true x).trans negative⟩
  · obtain ⟨positive, negative⟩ := sign_and_magnitudeWord_mem_iff x (low := 0x42800000) (high := 0x7F800000) (by decide)
    have range := magnitudeWord_lt x
    have pattern := toNat_eq_magnitudeWord_or x
    simp only [exec_fromFloat_eq_iff]
    refine ⟨?_, ((encodeFloat_eq_maxpos_iff_mem false x).trans positive).trans ?_,
      ((encodeFloat_eq_maxpos_iff_mem true x).trans negative).trans ?_, ?_⟩
    · rw [encodeFloat_eq_zero_iff]
      omega
    · omega
    · omega
    · rw [encodeFloat_eq_nar_iff]
      omega

end Sys2Proof.Proofs
end

