-- ==== Sys2Proof/Proofs/FieldRoundTrips.lean ====
section
/-! Equal inputs give equal outputs (R10, R115), and the round trips between bytes and fields (R102, R111, R112): PACK and
UNPACK of a byte agree on its sign, its row of R36 and its field. -/

namespace Sys2Proof.Machine

open Sys2Proof

/-- UNPACK's 4-bit regime value, sign-extended to PACK's 9-bit port, is the row's (R17, R47). -/
theorem toInt_signExtend_regime_of_row :
    ∀ row ∈ magnitudeRows, ((BitVec.ofInt 4 row.k).signExtend 9).toInt = row.k := by
  decide

/-- PACK builds a row's byte from the row's fields. -/
theorem packMagnitude_rowFields {row : MagnitudeRow} (hrow : row ∈ magnitudeRows) {field : BitVec 8}
    (hfield : field.toNat < 2 ^ row.rem) (sign : Bool) :
    packMagnitude row.k (rowFields row sign field).fraction = row.magnitude field := by
  rw [packMagnitude_of_row hrow (regime_of_row row hrow).1, fieldFromFraction_of_row hrow hfield]

/-- PACK undoes UNPACK on every byte but NaR (R102); `0x00` has the row K_M7. -/
theorem packByte_unpackByte {b : PositByte} (hnar : b ≠ 0x80#8) : packByte (packInputsOf (unpackByte b)) = b := by
  by_cases h0 : b = 0x00#8
  · rw [h0]
    decide
  · obtain ⟨row, hrow, hvalued, sign, field, hfield, rfl⟩ := exists_row_of_ordinary h0 hnar
    have regime : (packInputsOf (rowFields row sign field)).k.toInt = row.k := toInt_signExtend_regime_of_row row hrow
    rw [unpackByte_of_row hrow hvalued hfield, packByte, regime]
    exact congrArg (rawByte sign) (packMagnitude_rowFields hrow hfield sign)

/-- UNPACK reads from PACK's byte the row of the regime value, and of the fraction what the row has room for (R111). -/
theorem unpackByte_packMagnitude_of_row {row : MagnitudeRow} (hrow : row ∈ magnitudeRows) (hvalued : row ≠ rowM7) {k : ℤ}
    (hk : clampRegime k = row.k) (sign : Bool) (F : BitVec 6) :
    unpackByte (rawByte sign (packMagnitude k F)) = rowFields row sign (fieldFromFraction F row.rem) := by
  rw [packMagnitude_of_row hrow hk, unpackByte_of_row hrow hvalued (toNat_fieldFromFraction_lt F (rem_le_six row hrow))]

/-- The fraction that comes back is cut to `rem` bits. -/
theorem toNat_cutFraction_of_row {row : MagnitudeRow} (hrow : row ∈ magnitudeRows) (sign : Bool) (F : BitVec 6) :
    (rowFields row sign (fieldFromFraction F row.rem)).fraction.toNat =
      F.toNat / 2 ^ (6 - row.rem) * 2 ^ (6 - row.rem) := by
  rw [toNat_fraction_of_row hrow (toNat_fieldFromFraction_lt F (rem_le_six row hrow)), toNat_fieldFromFraction,
    Nat.shiftRight_eq_div_pow]

theorem signFactor_not (sign : Bool) : signFactor (!sign) = -signFactor sign := by
  cases sign <;> simp [signFactor]

/-- The two signs of a magnitude byte denote opposite numbers, and `0x00` is its own opposite (R112). -/
theorem byteValue_neg8 {b : PositByte} {v : ℚ} (hv : byteValue b = some v) : byteValue (neg8 b) = some (-v) := by
  have hnar : b ≠ 0x80#8 := by
    rintro rfl
    exact Option.some_ne_none v hv.symm
  by_cases h0 : b = 0x00#8
  · obtain rfl : 0 = v := Option.some.inj ((h0 ▸ byteValue_zero).symm.trans hv)
    rw [h0, neg_zero]
    exact byteValue_zero
  · obtain ⟨row, hrow, hvalued, sign, field, hfield, rfl⟩ := exists_row_of_ordinary h0 hnar
    have value (sign : Bool) := byteValue_of_row hrow hfield sign hvalued
    rw [neg8_rawByte, value, signFactor_not, neg_mul, neg_mul]
    exact congrArg (fun a => some (-a)) (Option.some.inj ((value sign).symm.trans hv))

end Sys2Proof.Machine

namespace Sys2Proof.Proofs

open Sys2Proof Sys2Proof.Machine

/-- An overlay that lays something hides what is under it. -/
theorem getD_eq_getD_of_isSome {α : Type} {a : Option α} (h : a.isSome) (x y : α) : a.getD x = a.getD y := by
  obtain ⟨z, rfl⟩ := Option.isSome_iff_exists.mp h
  rfl

/-- Settles O7: over the units it drives an instruction lays ports of its own, whatever the state. -/
theorem outputsDependOnInputsOnly : Obligations.OutputsDependOnInputsOnly := by
  intro i s s'
  obtain ⟨p, u, e, d, hexec, hp, hu, he, hd⟩ := exec_shows i
  refine ⟨_, _, hexec s, hexec s', fun unit driven => ?_⟩
  cases unit with
  | pack => exact getD_eq_getD_of_isSome (hp.mpr driven) s.pack s'.pack
  | unpack => exact getD_eq_getD_of_isSome (hu.mpr driven) s.unpack s'.unpack
  | encoder => exact getD_eq_getD_of_isSome (he.mpr driven) s.encoder s'.encoder
  | decoder => exact getD_eq_getD_of_isSome (hd.mpr driven) s.decoder s'.decoder

/-- Settles O26: an ordinary byte has its row's fields and `0x00` those of K_M7; the tuple of NaR is that of `0x40` (R61). -/
theorem packUndoesUnpack : Obligations.PackUndoesUnpack := by
  refine fun s b => ⟨unpackByte b, _, exec_unpack_of_eq rfl s, exec_pack rfl _ s, packByte_unpackByte, ?_⟩
  rintro rfl
  decide

/-- Settles O27: below the range the byte is `0x00`, and from −6 up it is of the row of the nearest `k` that fits. -/
theorem unpackOfPackCutsTheFraction : Obligations.UnpackOfPackCutsTheFraction := by
  intro s sign k e F rem hrem
  refine ⟨_, _, exec_pack rfl e s, exec_unpack_of_eq rfl s, ?_⟩
  by_cases flushed : k.toInt ≤ -7
  · have zero : rawByte sign (packMagnitude k.toInt F) = 0x00#8 := by
      rw [packMagnitude_of_le_neg_seven flushed, rawByte_zero]
    refine ⟨fun _ _ => by omega, fun _ => by omega, fun _ => ⟨zero, ?_⟩⟩
    rw [zero]
    decide
  · obtain ⟨row, hrow, hvalued, hk⟩ := exists_valued_row_of_regime (k := clampRegime k.toInt)
      (by unfold clampRegime; omega) (by unfold clampRegime; omega)
    have regime := toInt_regime_of_row row hrow
    have fraction := toNat_cutFraction_of_row hrow sign F
    rw [unpackByte_packMagnitude_of_row hrow hvalued hk.symm]
    refine ⟨fun low high => ?_, fun saturated => ?_, fun h => absurd h flushed⟩
    · rw [clampRegime_of_mem (by omega) (by omega)] at hk
      obtain rfl : rem = row.rem := by rw [hrem, ← hk, rem_of_valued row hrow hvalued]
      exact ⟨rfl, regime.trans hk, rfl, fraction⟩
    · have top : row.k = 6 := by
        rw [hk, clampRegime]
        omega
      rw [rem_eq_zero_of_regime_six row hrow top, Nat.div_eq_of_lt F.isLt, Nat.zero_mul] at fraction
      refine ⟨rfl, regime.trans top, rfl, BitVec.eq_of_toNat_eq ?_⟩
      rw [rem_eq_zero_of_regime_six row hrow top, fraction]
      rfl

/-- Settles O28: PACK applies the sign last, and both signs of a magnitude byte have the row's fields and its number. -/
theorem negatingTheByteInvertsTheSign : Obligations.NegatingTheByteInvertsTheSign := by
  refine ⟨fun s k e F => ⟨_, exec_pack rfl e s, exec_pack rfl e s⟩, fun s b h0 hnar => ?_, fun _ _ => byteValue_neg8,
    by decide, by decide⟩
  obtain ⟨row, hrow, hvalued, sign, field, hfield, rfl⟩ := exists_row_of_ordinary h0 hnar
  have fields (sign : Bool) := unpackByte_of_row hrow hvalued hfield sign
  refine ⟨_, exec_unpack_of_eq (fields sign) s, exec_unpack_of_eq ?_ s⟩
  rw [neg8_rawByte, fields]
  rfl

end Sys2Proof.Proofs
end

