-- ==== Sys2Proof/Proofs/FloatRoundTrips.lean ====
section
/-! The round trips between bytes and floats (R100, R101, R105 to R107, R109). -/

namespace Sys2Proof.Proofs

open Sys2Proof Sys2Proof.Machine

/-- Settles O46: FROMFLOAT gets sign, row and field back from an ordinary byte's float, and NaR from any NaN. -/
theorem fromFloatOfToFloatIsTheByte : Obligations.FromFloatOfToFloatIsTheByte :=
  fun s b => ⟨_, exec_toFloat_of_eq rfl s, exec_fromFloat_of_eq (encodeFloat_decodeByte b) s⟩

/-- Settles O48: FROMFLOAT's tests are of the exponent (R71, R73), TOFLOAT's of the raw byte (R86, R87). -/
theorem zeroAndNaNRoundTrip : Obligations.ZeroAndNaNRoundTrip := by
  refine fun s => ⟨exec_fromFloat_of_eq (encodeFloat_of_bottom _ (by decide)) s,
    exec_fromFloat_of_eq (encodeFloat_of_bottom _ (by decide)) s, exec_toFloat_of_eq rfl s, fun x top _ => ?_,
    nanOut, isNaN_nanOut, exec_toFloat_of_eq rfl s⟩
  exact exec_fromFloat_of_eq (encodeFloat_of_top (BitVec.eq_of_toNat_eq top)) s

/-- Settles O49: the decoder's words of `0x40`, `0x60`, `0x20` and `0xC0`, each of which FROMFLOAT takes back to its byte. -/
theorem documentScenariosRoundTrip : Obligations.DocumentScenariosRoundTrip := by
  have scenario {b : PositByte} {f : Binary32} (hf : decodeByte Config.divisor b = f) (s : State) :
      exec (.fromFloat f) s = .next { s with encoder := { fIn := f, pOut := b } } ∧
      exec (.toFloat b) s = .next { s with decoder := { pIn := b, fOut := f } } :=
    ⟨exec_fromFloat_of_eq (hf ▸ encodeFloat_decodeByte b) s, exec_toFloat_of_eq hf s⟩
  intro s
  obtain ⟨one, -⟩ := scenario (b := 0x40#8) (f := 0x3F800000#32) (by decide) s
  obtain ⟨two, two'⟩ := scenario (b := 0x60#8) (f := 0x40000000#32) (by decide) s
  obtain ⟨half, half'⟩ := scenario (b := 0x20#8) (f := 0x3F000000#32) (by decide) s
  obtain ⟨minusOne, minusOne'⟩ := scenario (b := 0xC0#8) (f := 0xBF800000#32) (by decide) s
  exact ⟨one, two, two', half, half', minusOne, minusOne'⟩

end Sys2Proof.Proofs
end

