-- ==== Sys2Proof/Proofs/FloatOrder.lean ====
section
/-! The order of finite floats: by their magnitudes as by their patterns without the sign bit (R40, R41). With it, where
FROMFLOAT's two reserved bytes come from (R113, R114), and the sign antisymmetry (R103). -/

namespace Sys2Proof.Machine

open Sys2Proof

/-! ### Magnitudes between powers of two (R41) -/

theorem zpow_le_floatMagnitude {x : Binary32} (normal : floatExponent x ≠ 0x00#8) :
    (2 : ℚ) ^ ((floatExponent x).toNat - 127 : ℤ) ≤ floatMagnitude x := by
  rw [floatMagnitude_of_normal normal]
  exact le_mul_of_one_le_left (by positivity) (le_add_of_nonneg_right (by positivity))

/-- A subnormal is below `2^−126`, as if its exponent were that of the zeros (R83). -/
theorem floatMagnitude_lt_zpow (x : Binary32) : floatMagnitude x < (2 : ℚ) ^ ((floatExponent x).toNat - 126 : ℤ) := by
  have significand : ((floatSignificand x).toNat : ℚ) < 2 ^ 23 := by exact_mod_cast (floatSignificand x).isLt
  by_cases bottom : floatExponent x = 0x00#8
  · rw [floatMagnitude, if_pos bottom, bottom]
    calc ((floatSignificand x).toNat : ℚ) * 2 ^ (-149 : ℤ)
      _ < 2 ^ 23 * 2 ^ (-149 : ℤ) := mul_lt_mul_of_pos_right significand (by positivity)
      _ = 2 ^ (((0x00#8).toNat : ℤ) - 126) := by norm_num
  · have split : ((floatExponent x).toNat - 126 : ℤ) = (floatExponent x).toNat - 127 + 1 := by ring
    rw [floatMagnitude_of_normal bottom, split, zpow_add_one₀ two_ne_zero, mul_comm]
    refine mul_lt_mul_of_pos_left ?_ (by positivity)
    linarith [(div_lt_one (by positivity)).mpr significand]

/-- The least magnitude with biased exponent `n` parts the floats below `n` from the others. -/
theorem floatMagnitude_lt_zpow_iff (x : Binary32) {n : ℕ} (hn : 0 < n) :
    floatMagnitude x < (2 : ℚ) ^ (n - 127 : ℤ) ↔ (floatExponent x).toNat < n := by
  constructor
  · intro below
    by_contra! le
    have normal : floatExponent x ≠ 0x00#8 := ne_zero_of_toNat_pos (hn.trans_le le)
    have scale : (2 : ℚ) ^ (n - 127 : ℤ) ≤ 2 ^ ((floatExponent x).toNat - 127 : ℤ) :=
      zpow_le_zpow_right₀ one_le_two (by omega)
    exact absurd (scale.trans (zpow_le_floatMagnitude normal)) (not_le.mpr below)
  · intro lt
    exact (floatMagnitude_lt_zpow x).trans_le (zpow_le_zpow_right₀ one_le_two (by omega))

/-! ### The order of patterns is the order of magnitudes -/

/-- With one exponent the significands decide. -/
theorem floatMagnitude_lt_of_significand_lt {x y : Binary32} (same : floatExponent x = floatExponent y)
    (lt : (floatSignificand x).toNat < (floatSignificand y).toNat) : floatMagnitude x < floatMagnitude y := by
  have lt : ((floatSignificand x).toNat : ℚ) < (floatSignificand y).toNat := by exact_mod_cast lt
  unfold floatMagnitude
  rw [same]
  split_ifs
  · exact mul_lt_mul_of_pos_right lt (by positivity)
  · exact mul_lt_mul_of_pos_right (by linarith) (by positivity)

theorem floatMagnitude_lt_of_magnitudeWord_lt {x y : Binary32} (lt : magnitudeWord x < magnitudeWord y) :
    floatMagnitude x < floatMagnitude y := by
  have := (floatSignificand x).isLt
  have := (floatSignificand y).isLt
  unfold magnitudeWord at lt
  by_cases same : (floatExponent x).toNat = (floatExponent y).toNat
  · exact floatMagnitude_lt_of_significand_lt (BitVec.eq_of_toNat_eq same) (by omega)
  · have below : (floatExponent x).toNat < (floatExponent y).toNat := by omega
    have between := (floatMagnitude_lt_zpow_iff x (Nat.zero_lt_of_lt below)).mpr below
    exact between.trans_le (zpow_le_floatMagnitude (ne_zero_of_toNat_pos (Nat.zero_lt_of_lt below)))

/-- Equal patterns have equal fields, so the order is strict both ways. -/
theorem floatMagnitude_le_iff (x y : Binary32) : floatMagnitude x ≤ floatMagnitude y ↔ magnitudeWord x ≤ magnitudeWord y := by
  constructor
  · intro le
    by_contra! lt
    exact absurd (floatMagnitude_lt_of_magnitudeWord_lt lt) (not_lt.mpr le)
  · intro le
    rcases le.lt_or_eq with lt | same
    · exact (floatMagnitude_lt_of_magnitudeWord_lt lt).le
    · have := (floatSignificand x).isLt
      have := (floatSignificand y).isLt
      unfold magnitudeWord at same
      have exponent : floatExponent x = floatExponent y := BitVec.eq_of_toNat_eq (by omega)
      have significand : floatSignificand x = floatSignificand y := BitVec.eq_of_toNat_eq (by omega)
      rw [floatMagnitude, exponent, significand, ← floatMagnitude]

/-! ### The reserved bytes, and the sign -/

/-- NaR is the byte of exponent 255 alone (R113). -/
theorem encodeFloat_eq_nar_iff_top (x : Binary32) :
    encodeFloat Config.infPolicy x = 0x80#8 ↔ floatExponent x = 0xFF#8 :=
  ⟨fun nar => of_not_not fun finite => encodeFloat_ne_nar _ finite nar, encodeFloat_of_top⟩

theorem isNaN_or_isInfinite_iff (x : Binary32) :
    isNaN x = true ∨ isInfinite x = true ↔ floatExponent x = 0xFF#8 := by
  simp only [isNaN, isInfinite, Bool.and_eq_true, beq_iff_eq, bne_iff_ne, ← and_or_left]
  exact and_iff_left (ne_or_eq _ _)

/-- `0x00` is the byte of the exponents below 121 (R114). -/
theorem encodeFloat_eq_zero_iff_exponent (x : Binary32) :
    encodeFloat Config.infPolicy x = 0x00#8 ↔ (floatExponent x).toNat ≤ 120 := by
  have := (floatSignificand x).isLt
  rw [encodeFloat_eq_zero_iff, magnitudeWord]
  omega

/-- These are the finite inputs below minpos. -/
theorem floatValue_lt_minpos_iff (x : Binary32) :
    (∃ v, floatValue x = some v ∧ |v| < (2 : ℚ) ^ (-6 : ℤ)) ↔ (floatExponent x).toNat ≤ 120 := by
  have below : floatMagnitude x < (2 : ℚ) ^ (-6 : ℤ) ↔ (floatExponent x).toNat < 121 :=
    floatMagnitude_lt_zpow_iff x (n := 121) (by decide)
  rw [← Nat.lt_succ_iff, ← below]
  constructor
  · rintro ⟨v, hv, small⟩
    rwa [floatMagnitude_eq_abs hv]
  · intro small
    have finite : floatExponent x ≠ 0xFF#8 := by
      intro top
      rw [below, top] at small
      exact absurd small (by decide)
    refine ⟨_, floatValue_of_finite finite, ?_⟩
    rwa [abs_signFactor_mul _ (floatMagnitude_nonneg x)]

/-- Bit 31 is the sign of the byte and nothing else of it (R103). -/
theorem encodeFloat_xor_signBit (policy : Config.InfPolicy) {x : Binary32} (finite : floatExponent x ≠ 0xFF#8) :
    encodeFloat policy (x ^^^ 0x80000000#32) = neg8 (encodeFloat policy x) := by
  have flipped : x ^^^ 0x80000000#32 = floatWord (!floatSign x) (floatExponent x) (floatSignificand x) := by
    rw [← floatWord_xor_signBit, floatWord_of_fields]
  rw [flipped, encodeFloat_of_finite policy (by rwa [floatExponent_floatWord]), encodeFloat_of_finite policy finite,
    neg8_rawByte]
  simp only [floatSign_floatWord, floatExponent_floatWord, floatSignificand_floatWord]

end Sys2Proof.Machine

namespace Sys2Proof.Proofs

open Sys2Proof Sys2Proof.Machine

/-- Settles O38: NaNs and infinities are the inputs of exponent 255, and PACK never gives NaR (R58). -/
theorem naRComesFromNonFiniteInputsOnly : Obligations.NaRComesFromNonFiniteInputsOnly := by
  intro s x
  have nar := encodeFloat_eq_nar_iff_top x
  exact ⟨_, exec_fromFloat_of_eq rfl s, nar.trans (isNaN_or_isInfinite_iff x).symm, nar.trans BitVec.toNat_inj.symm⟩

/-- Settles O39: what is flushed is what lies below the exponent of minpos. -/
theorem zeroComesFromSmallInputsOnly : Obligations.ZeroComesFromSmallInputsOnly := by
  intro s x
  have zero := encodeFloat_eq_zero_iff_exponent x
  exact ⟨_, exec_fromFloat_of_eq rfl s, zero.trans (floatValue_lt_minpos_iff x).symm, zero⟩

/-- Settles O37: the encoder's side by the sign bit, the decoder's by the image of TOFLOAT (R93), or by the float of
`0x00`, which is its own negation. -/
theorem negatingTheFloatNegatesTheByte : Obligations.NegatingTheFloatNegatesTheByte := by
  intro s x finite
  have negated := exec_fromFloat_of_eq (encodeFloat_xor_signBit Config.infPolicy finite) s
  by_cases h0 : encodeFloat Config.infPolicy x = 0x00#8
  · rw [h0] at negated
    exact ⟨_, _, _, exec_fromFloat_of_eq h0 s, negated, exec_toFloat_of_eq rfl s, exec_toFloat_of_eq rfl s,
      fun h => absurd rfl h, fun _ => ⟨rfl, rfl⟩⟩
  · obtain ⟨f, -, hf, -, -, -, -, -, hneg, -⟩ := decoderImage.1 s _ h0 (encodeFloat_ne_nar _ finite)
    exact ⟨_, f, _, exec_fromFloat_of_eq rfl s, negated, hf, hneg, fun _ => rfl, fun h => absurd h h0⟩

end Sys2Proof.Proofs
end

