-- ==== Sys2Proof/Proofs/ByteOrder.lean ====
section
/-! The order of bytes against the order of the numbers they denote (R104). On magnitudes the two agree, and FROMFLOAT picks
the largest byte that does not exceed its input: truncation toward zero, from which the error bounds (R110) and monotonicity
(R108) follow. -/

namespace Sys2Proof.Machine

open Sys2Proof

/-! ### Sign and magnitude of a byte (R32) -/

/-- The signed integer of a byte is its magnitude byte's number under its sign. -/
theorem toInt_eq_of_ne_nar {b : PositByte} (hnar : b ≠ 0x80#8) :
    b.toInt = if byteSign b then -((magnitudeOf b).toNat : ℤ) else (magnitudeOf b).toNat := by
  have notNar : b.toNat ≠ 128 := fun h => hnar (BitVec.eq_of_toNat_eq h)
  have := b.isLt
  rw [BitVec.toInt_eq_toNat_cond, magnitudeOf, byteSign_eq_decide]
  by_cases negative : 128 ≤ b.toNat
  · rw [if_neg (by omega), decide_eq_true negative, if_pos rfl, if_pos rfl, toNat_neg8]
    omega
  · rw [if_pos (by omega), decide_eq_false negative]
    rfl

theorem ne_nar_of_byteValue {b : PositByte} {v : ℚ} (hv : byteValue b = some v) : b ≠ 0x80#8 := by
  rintro rfl
  exact Option.some_ne_none v hv.symm

theorem eq_zero_of_byteValue_zero {v : ℚ} (hv : byteValue 0x00#8 = some v) : v = 0 :=
  (Option.some.inj (byteValue_zero.symm.trans hv)).symm

/-- Bit 7 says whether the number is below 0. -/
theorem byteSign_iff_neg {b : PositByte} {v : ℚ} (hv : byteValue b = some v) : byteSign b = true ↔ v < 0 := by
  by_cases h0 : b = 0x00#8
  · subst h0
    rw [eq_zero_of_byteValue_zero hv]
    decide
  · obtain ⟨row, hrow, hvalued, sign, field, hfield, rfl⟩ := exists_row_of_ordinary h0 (ne_nar_of_byteValue hv)
    have positive := MagnitudeRow.byteSign_of_hits hrow (MagnitudeRow.hits_magnitude hrow hfield)
    rw [byteValue_of_row hrow hfield sign hvalued, Option.some_inj, mul_assoc] at hv
    rw [byteSign_rawByte positive (magnitude_ne_zero hrow hvalued), ← hv, signFactor_mul_neg_iff sign (by positivity)]

/-- The magnitude byte denotes the byte's number without its sign. -/
theorem abs_byteValue_magnitudeOf {b : PositByte} {v : ℚ} (hv : byteValue b = some v) :
    ∃ u, byteValue (magnitudeOf b) = some u ∧ |u| = |v| := by
  unfold magnitudeOf
  split_ifs
  · exact ⟨-v, byteValue_neg8 hv, abs_neg v⟩
  · exact ⟨v, hv, rfl⟩

/-- Nothing lies between 0 and minpos, nor beyond maxpos (R45). -/
theorem abs_byteValue_mem {b : PositByte} {v : ℚ} (hv : byteValue b = some v) : v = 0 ∨ 1 / 64 ≤ |v| ∧ |v| ≤ 64 := by
  by_cases h0 : b = 0x00#8
  · subst h0
    exact .inl (eq_zero_of_byteValue_zero hv)
  · obtain ⟨-, u, -, -, -, hu, low, high, -⟩ := Proofs.decoderImage.1 State.reset b h0 (ne_nar_of_byteValue hv)
    obtain rfl : u = v := Option.some.inj (hu.symm.trans hv)
    exact .inr ⟨low, high⟩

theorem byteValue_maxpos : byteValue 0x7F#8 = some 64 := by
  have value := byteValue_of_row (row := rowP6) (by decide) (field := 0x00#8) (by decide) false (by decide)
  refine value.trans (congrArg some ?_)
  norm_num [rowP6, signFactor]

/-! ### Bytes and floats (R88) -/

/-- TOFLOAT gives the number that the byte denotes: +0.0 for `0x00`, and for NaR a NaN, which is no number. -/
theorem floatValue_decodeByte (b : PositByte) : floatValue (decodeByte Config.divisor b) = byteValue b := by
  by_cases hnar : b = 0x80#8
  · rw [hnar]
    exact if_pos (floatExponent_floatWord ..)
  by_cases h0 : b = 0x00#8
  · rw [h0]
    change floatValue 0x00000000#32 = some 0
    rw [floatValue_of_finite (by decide)]
    simp [floatMagnitude, floatExponent, floatSignificand]
  · obtain ⟨row, hrow, hvalued, sign, field, hfield, rfl⟩ := exists_row_of_ordinary h0 hnar
    rw [decodeByte_of_row hrow hvalued hfield, byteValue_of_row hrow hfield sign hvalued]
    exact floatValue_of_row hrow hfield sign

/-- FROMFLOAT's byte has the magnitude byte that is put under the sign. -/
theorem magnitudeOf_encodeFloat {x : Binary32} (finite : floatExponent x ≠ 0xFF#8) :
    magnitudeOf (encodeFloat Config.infPolicy x) = encodedMagnitude x := by
  rw [encodeFloat_of_finite _ finite, ← encodedMagnitude]
  by_cases h0 : encodedMagnitude x = 0x00#8
  · rw [h0, rawByte_zero]
    rfl
  · exact magnitudeOf_rawByte (byteSign_encodedMagnitude x) h0 _

/-- The Galois connection in numbers: the bytes whose magnitude does not exceed a float's are those up to the float's
byte. -/
theorem abs_le_abs_iff_magnitude_le {b : PositByte} {x : Binary32} {w v : ℚ} (hb : byteValue b = some w)
    (hx : floatValue x = some v) :
    |w| ≤ |v| ↔ (magnitudeOf b).toNat ≤ (magnitudeOf (encodeFloat Config.infPolicy x)).toNat := by
  by_cases h0 : b = 0x00#8
  · subst h0
    rw [eq_zero_of_byteValue_zero hb, abs_zero]
    exact iff_of_true (abs_nonneg v) (Nat.zero_le _)
  · obtain ⟨u, hu, habs⟩ := abs_byteValue_magnitudeOf hb
    rw [magnitudeOf_encodeFloat (finite_of_floatValue hx).1,
      le_encodedMagnitude_iff (magnitudeOf_ne_zero h0) (toNat_magnitudeOf_lt (ne_nar_of_byteValue hb)),
      ← floatMagnitude_le_iff, floatMagnitude_eq_abs hx, ← habs]
    rw [← floatValue_decodeByte] at hu
    rw [← floatMagnitude_eq_abs hu]
    rfl

/-- The magnitude bytes are in the order of their numbers, since FROMFLOAT gets a byte back from its float. -/
theorem magnitude_le_iff_abs_le {b c : PositByte} {v w : ℚ} (hb : byteValue b = some v) (hc : byteValue c = some w) :
    (magnitudeOf b).toNat ≤ (magnitudeOf c).toNat ↔ |v| ≤ |w| := by
  rw [abs_le_abs_iff_magnitude_le hb ((floatValue_decodeByte c).trans hc), encodeFloat_decodeByte]

/-- The signed order of bytes is the order of their numbers (R104): signs first, then magnitudes, turned over below 0. -/
theorem toInt_lt_toInt_iff {b c : PositByte} {v w : ℚ} (hb : byteValue b = some v) (hc : byteValue c = some w) :
    b.toInt < c.toInt ↔ v < w := by
  have up := magnitude_le_iff_abs_le hc hb
  have down := magnitude_le_iff_abs_le hb hc
  have signB := byteSign_iff_neg hb
  have signC := byteSign_iff_neg hc
  rw [toInt_eq_of_ne_nar (ne_nar_of_byteValue hb), toInt_eq_of_ne_nar (ne_nar_of_byteValue hc)]
  by_cases hv : v < 0 <;> by_cases hw : w < 0
  · rw [if_pos (signB.mpr hv), if_pos (signC.mpr hw), neg_lt_neg_iff, Nat.cast_lt, ← not_le, down, abs_of_neg hv,
      abs_of_neg hw, neg_le_neg_iff, not_le]
  · have h0 : b ≠ 0x00#8 := by
      rintro rfl
      exact hv.ne (eq_zero_of_byteValue_zero hb)
    have nonzero : (magnitudeOf b).toNat ≠ 0 := fun h => magnitudeOf_ne_zero h0 (BitVec.eq_of_toNat_eq h)
    rw [if_pos (signB.mpr hv), if_neg (mt signC.mp hw)]
    exact iff_of_true (by omega) (hv.trans_le (not_lt.mp hw))
  · rw [if_neg (mt signB.mp hv), if_pos (signC.mpr hw)]
    exact iff_of_false (by omega) fun lt => hv (lt.trans hw)
  · rw [if_neg (mt signB.mp hv), if_neg (mt signC.mp hw), Nat.cast_lt, ← not_le, up, abs_of_nonneg (not_lt.mp hv),
      abs_of_nonneg (not_lt.mp hw), not_le]

/-! ### FROMFLOAT truncates toward zero (R79, R84) -/

/-- No byte comes closer to the input from the side of 0. -/
theorem abs_le_abs_encoded {x : Binary32} {v y : ℚ} (hv : floatValue x = some v)
    (hy : byteValue (encodeFloat Config.infPolicy x) = some y) {b : PositByte} {w : ℚ} (hw : byteValue b = some w)
    (le : |w| ≤ |v|) : |w| ≤ |y| :=
  (magnitude_le_iff_abs_le hw hy).mp ((abs_le_abs_iff_magnitude_le hw hv).mp le)

/-- The byte's number lies between 0 and the input. -/
theorem encoded_between {x : Binary32} {v : ℚ} (hv : floatValue x = some v) :
    ∃ y, byteValue (encodeFloat Config.infPolicy x) = some y ∧ (0 ≤ v → 0 ≤ y ∧ y ≤ v) ∧ (v ≤ 0 → v ≤ y ∧ y ≤ 0) := by
  obtain ⟨p, y, hp, hy, le, sign⟩ := Proofs.encoderNeverGrowsTheMagnitude State.reset x v hv
  obtain rfl := exec_fromFloat_eq_iff.mp hp
  refine ⟨y, hy, fun nonneg => ?_, fun nonpos => ?_⟩
  · have : 0 ≤ y := sign.elim (·.ge) fun h => (pos_of_mul_pos_left h nonneg).le
    rw [abs_of_nonneg nonneg, abs_of_nonneg this] at le
    exact ⟨this, le⟩
  · have : y ≤ 0 := sign.elim (·.le) fun h => (neg_of_mul_pos_left h nonpos).le
    rw [abs_of_nonpos nonpos, abs_of_nonpos this] at le
    exact ⟨neg_le_neg_iff.mp le, this⟩

/-- Truncation keeps the order: across 0 by the signs, on either side of 0 as no byte comes closer. -/
theorem encoded_le_encoded {x y : Binary32} {v w p q : ℚ} (hv : floatValue x = some v) (hw : floatValue y = some w)
    (hp : byteValue (encodeFloat Config.infPolicy x) = some p) (hq : byteValue (encodeFloat Config.infPolicy y) = some q)
    (le : v ≤ w) : p ≤ q := by
  obtain ⟨p', hp', up, down⟩ := encoded_between hv
  obtain ⟨q', hq', up', down'⟩ := encoded_between hw
  obtain rfl : p' = p := Option.some.inj (hp'.symm.trans hp)
  obtain rfl : q' = q := Option.some.inj (hq'.symm.trans hq)
  rcases le_total 0 v with nonneg | nonpos
  · obtain ⟨p_nonneg, p_le⟩ := up nonneg
    obtain ⟨q_nonneg, -⟩ := up' (nonneg.trans le)
    have := abs_le_abs_encoded hw hq hp (by rw [abs_of_nonneg p_nonneg, abs_of_nonneg (nonneg.trans le)]; linarith)
    rwa [abs_of_nonneg p_nonneg, abs_of_nonneg q_nonneg] at this
  · obtain ⟨-, p_nonpos⟩ := down nonpos
    rcases le_total 0 w with w_nonneg | w_nonpos
    · exact p_nonpos.trans (up' w_nonneg).1
    · obtain ⟨le_q, q_nonpos⟩ := down' w_nonpos
      have := abs_le_abs_encoded hv hp hq (by rw [abs_of_nonpos q_nonpos, abs_of_nonpos nonpos]; linarith)
      rw [abs_of_nonpos q_nonpos, abs_of_nonpos p_nonpos] at this
      linarith

/-- Cutting a significand to `rem` bits takes away less than a unit of its last place, and nothing below the leading one. -/
theorem truncation_error {a : ℚ} {k : ℤ} (low : (2 : ℚ) ^ k ≤ a) (rem : ℕ) :
    a - (2 : ℚ) ^ k * (1 + (⌊(a / (2 : ℚ) ^ k - 1) * 2 ^ rem⌋ : ℚ) / 2 ^ rem) < (2 : ℚ) ^ (k - rem) ∧
      (2 : ℚ) ^ k ≤ (2 : ℚ) ^ k * (1 + (⌊(a / (2 : ℚ) ^ k - 1) * 2 ^ rem⌋ : ℚ) / 2 ^ rem) := by
  have scale : (0 : ℚ) < 2 ^ k := zpow_pos two_pos k
  have one_le : 1 ≤ a / (2 : ℚ) ^ k := (one_le_div scale).mpr low
  have unit : (2 : ℚ) ^ (k - rem) = 2 ^ k / 2 ^ rem := by rw [zpow_sub₀ two_ne_zero, zpow_natCast]
  have floor := Int.lt_floor_add_one ((a / (2 : ℚ) ^ k - 1) * 2 ^ rem)
  have floor_nonneg : (0 : ℚ) ≤ ⌊(a / (2 : ℚ) ^ k - 1) * 2 ^ rem⌋ := by
    exact_mod_cast Int.floor_nonneg.mpr (mul_nonneg (sub_nonneg.mpr one_le) (by positivity))
  generalize (⌊(a / (2 : ℚ) ^ k - 1) * 2 ^ rem⌋ : ℚ) = t at floor floor_nonneg ⊢
  constructor
  · have lost : a / (2 : ℚ) ^ k - 1 < (t + 1) / 2 ^ rem := (lt_div_iff₀ (by positivity)).mpr floor
    calc a - 2 ^ k * (1 + t / 2 ^ rem)
      _ = 2 ^ k * (a / 2 ^ k - 1) - 2 ^ k * (t / 2 ^ rem) := by field_simp; ring
      _ < 2 ^ k * ((t + 1) / 2 ^ rem) - 2 ^ k * (t / 2 ^ rem) := sub_lt_sub_right (mul_lt_mul_of_pos_left lost scale) _
      _ = 2 ^ (k - rem) := by rw [unit]; ring
  · exact le_mul_of_one_le_right scale.le (le_add_of_nonneg_right (by positivity))

end Sys2Proof.Machine

namespace Sys2Proof.Proofs

open Sys2Proof Sys2Proof.Machine

/-- Settles O36: FROMFLOAT's truncation keeps the order of numbers, which is the signed order of bytes; and −128 is NaR. -/
theorem byteOrderIsValueOrder : Obligations.ByteOrderIsValueOrder := by
  refine ⟨fun s x y v w hv hw le => ?_, fun _ _ _ _ => toInt_lt_toInt_iff⟩
  obtain ⟨p, hp, -⟩ := encoded_between hv
  obtain ⟨q, hq, -⟩ := encoded_between hw
  have ordered := mt (toInt_lt_toInt_iff hq hp).mp (not_lt.mpr (encoded_le_encoded hv hw hp hq le))
  have signed := toInt_eq_of_ne_nar (ne_nar_of_byteValue hp)
  have sevenBits := toNat_magnitudeOf_lt (ne_nar_of_byteValue hp)
  refine ⟨_, _, exec_fromFloat_of_eq rfl s, exec_fromFloat_of_eq rfl s, ?_, not_lt.mp ordered⟩
  rw [signed]
  split_ifs <;> omega

/-- In the range the byte is not `0x00`, and the error is that of the one truncation (R79). -/
theorem encoded_error {x : Binary32} {v y : ℚ} (hv : floatValue x = some v)
    (hy : byteValue (encodeFloat Config.infPolicy x) = some y) {k : ℤ} {rem : ℕ} (low : -6 ≤ k) (high : k ≤ 5)
    (below : (2 : ℚ) ^ k ≤ |v|) (above : |v| < (2 : ℚ) ^ (k + 1))
    (hrem : rem = (if 0 ≤ k then 5 - k else 6 + k).toNat) : y ≠ 0 ∧ |v| - |y| < (2 : ℚ) ^ (k - rem) := by
  obtain ⟨p, hp, hvalue⟩ := encoderTruncatesOnce State.reset x v k rem hv low high below above hrem
  obtain rfl := exec_fromFloat_eq_iff.mp hp
  obtain ⟨error, one_le⟩ := truncation_error below rem
  have scale : (0 : ℚ) < 2 ^ k := zpow_pos two_pos k
  rw [hy, Option.some_inj, mul_assoc] at hvalue
  have magnitude := abs_signFactor_mul (decide (v < 0)) (scale.le.trans one_le)
  rw [← hvalue] at magnitude
  rw [← magnitude] at error one_le
  exact ⟨abs_pos.mp (scale.trans_le one_le), error⟩

/-- Settles O35: TOFLOAT gives the byte's number, and FROMFLOAT's is the truncation of the input. In the range the error is
that of the cut; at and beyond maxpos, and for a number that a byte denotes, no byte comes closer. -/
theorem conversionErrorIsBounded : Obligations.ConversionErrorIsBounded := by
  intro s x v hv
  obtain ⟨p, y, hp, hy, le, sign⟩ := encoderNeverGrowsTheMagnitude s x v hv
  obtain rfl := exec_fromFloat_eq_iff.mp hp
  have range := abs_byteValue_mem hy
  refine ⟨_, _, y, hp, exec_toFloat_of_eq rfl s, (floatValue_decodeByte _).trans hy, fun small => ?_,
    fun k rem low high below above hrem => ?_, fun large => ?_, fun unchanged => ⟨_, unchanged ▸ hy⟩, fun ⟨b, hb⟩ => ?_⟩
  · have minpos : (2 : ℚ) ^ (-6 : ℤ) = 1 / 64 := by norm_num
    rw [minpos] at small
    exact range.resolve_right fun h => absurd (h.1.trans le) (not_le.mpr small)
  · obtain ⟨nonzero, error⟩ := encoded_error hv hy low high below above hrem
    have unit : (2 : ℚ) ^ (k - rem) ≤ |v| / 2 ^ rem := by
      rw [zpow_sub₀ two_ne_zero, zpow_natCast]
      exact div_le_div_of_nonneg_right below (by positivity)
    exact ⟨sign.resolve_left nonzero, le, error, error.trans_le unit⟩
  · have maxpos : (64 : ℚ) ≤ |y| := by simpa using abs_le_abs_encoded hv hy byteValue_maxpos (by simpa using large)
    have nonzero : y ≠ 0 := abs_pos.mp (lt_of_lt_of_le (by norm_num) maxpos)
    exact le_antisymm (range.resolve_left nonzero).2 maxpos
  · have same : |y| = |v| := le_antisymm le (abs_le_abs_encoded hv hy hb le_rfl)
    rcases sign with zero | positive
    · rw [zero, abs_zero] at same
      rw [zero, abs_eq_zero.mp same.symm]
    · refine (abs_eq_abs.mp same).resolve_right fun opposite => ?_
      rw [opposite, neg_mul, neg_pos] at positive
      exact absurd positive (mul_self_nonneg v).not_gt

end Sys2Proof.Proofs
end

