-- ==== Sys2Proof/Proofs/Reset.lean ====
section
/-! The wires at reset: with 0 on every input port (assumption 2), each unit's outputs are the rules' for that input. -/

namespace Sys2Proof.Machine

open Sys2Proof

/-- PACK's `0x40` is the byte of K_P0 with no fraction (R59), UNPACK's fields are those of K_M7 (R68), and FROMFLOAT and
TOFLOAT reach their tests for zero (R73, R86). -/
theorem settled_reset : Settled State.reset where
  pack := (packMagnitude_rowFields (row := rowP0) (field := 0x00#8) (by decide) (by decide) false).symm
  unpack := (unpackByte_of_hits (row := rowM7) (m := 0x00#8) (by decide) (by decide)).symm
  encoder := (encodeFloat_of_bottom Config.infPolicy (by decide)).symm
  decoder := (if_pos rfl).symm

end Sys2Proof.Machine

namespace Sys2Proof.Proofs

open Sys2Proof Sys2Proof.Machine

/-- Settles O11, unit by unit. -/
theorem resetHasSettledWires : Obligations.ResetHasSettledWires := settled_reset

end Sys2Proof.Proofs
end

