-- ==== Sys2Proof/Proofs/FetchWord.lean ====
section
/-! Words of the opcode table: a word of one of the table's two widths is the next evaluation (assumptions 3 and 4). -/

namespace Sys2Proof.Machine

open Sys2Proof

/-- Placing a table word puts it at the head of the list, and the step that takes it off gives the state back. -/
theorem step_withFetchWord {nbits w : ℕ} {word : PortWord} (hword : tableWord nbits w = .ok word) (s : State) :
    step (s.withFetchWord nbits w) = exec (decode word) s := by
  have placed : s.withFetchWord nbits w = s.setPending (.drive word :: s.pending) := by
    rw [State.withFetchWord, hword]
  rw [placed, step_cons (setPending_pending s _), word_drive]
  rfl

end Sys2Proof.Machine

namespace Sys2Proof.Proofs

open Sys2Proof Sys2Proof.Machine

/-- Settles O4: a word of 8 bits is a raw byte, a word of 32 bits a binary32 word. -/
theorem fetchWordIsTheNextEvaluation : Obligations.FetchWordIsTheNextEvaluation :=
  fun s _ => ⟨step_withFetchWord (word := .posit _) rfl s, step_withFetchWord (word := .binary32 _) rfl s⟩

end Sys2Proof.Proofs
end

