-- ==== Sys2Proof/Proofs/InfinityPolicy.lean ====
section
/-! INF_POLICY (U1): FROMFLOAT looks at the policy for an infinity alone. -/

namespace Sys2Proof.Machine

open Sys2Proof

/-- Exponent 255 with significand 0 is an infinity, of either sign (R41). -/
theorem eq_infinity_of_fields {x : Binary32} (top : floatExponent x = 0xFF#8) (zero : floatSignificand x = 0#23) :
    x = 0x7F800000#32 ∨ x = 0xFF800000#32 := by
  rw [← floatWord_of_fields x, top, zero]
  cases floatSign x
  · exact .inl (by decide)
  · exact .inr (by decide)

theorem encodeFloat_infinity (policy : Config.InfPolicy) (sign : Bool) :
    encodeFloat policy (floatWord sign 0xFF#8 0#23) = infinityByte policy sign := by
  simp [encodeFloat_floatWord]

/-- The policy is for infinities alone: a NaN gives NaR (R71), and a finite input PACK's byte or `0x00` (R80). -/
theorem encodeFloat_eq_of_not_infinity (policy policy' : Config.InfPolicy) {x : Binary32}
    (positive : x ≠ 0x7F800000#32) (negative : x ≠ 0xFF800000#32) : encodeFloat policy x = encodeFloat policy' x := by
  by_cases top : floatExponent x = 0xFF#8
  · have payload : floatSignificand x ≠ 0#23 := fun zero => (eq_infinity_of_fields top zero).elim positive negative
    simp only [encodeFloat, if_pos top, if_neg payload]
  · rw [encodeFloat_of_finite policy top, encodeFloat_of_finite policy' top]

end Sys2Proof.Machine

namespace Sys2Proof.Proofs

open Sys2Proof Sys2Proof.Machine

/-- Settles O41: the two words are the infinities, whose bytes each policy gives, and on any other input the policies agree. -/
theorem infinityPolicyChangesOnlyInfinities : Obligations.InfinityPolicyChangesOnlyInfinities :=
  ⟨encodeFloat_infinity .saturate false, encodeFloat_infinity .saturate true, encodeFloat_infinity .nar false,
    encodeFloat_infinity .nar true, fun _ => encodeFloat_eq_of_not_infinity _ _⟩

end Sys2Proof.Proofs
end
